-- ==== Sys2Proof/Word.lean ====
section
/-! DEFINITION. The widths the spec gives: a byte, a 16-bit word, register and key numbers, opcode fields. -/

namespace Sys2Proof

/-- "A byte is 8 bits and is the unit of addressing" (R60); a V register, DT and ST are bytes too (R26, R37). -/
abbrev Byte := BitVec 8

/-- 16 bits: an opcode (R80), PC (R28), I (R34), a call-stack entry (R35). -/
abbrev Word := BitVec 16

/-- The number of a V register, "always within [0,15] by construction" (R26). -/
abbrev Reg := Fin 16

/-- The number of a key, 0x0 to 0xF (R160). -/
abbrev Key := Fin 16

end Sys2Proof
end

