-- ==== Sys2Proof/Machine/Flags.lean ====
section
/-! DEFINITION. The values written to VF as a flag, 0x00 or 0x01 (R32), and the 8-bit results beside them (R119). -/

namespace Sys2Proof.Machine

/-- A flag as the full 8-bit value written to VF (R32). -/
def flagByte (b : Bool) : Byte := if b then 1 else 0

/-- Carry of `8XY4`: "1 if the unclamped sum exceeds 255, else 0" (R119, R126). -/
def carryFlag (a b : Byte) : Byte := flagByte (decide (a.toNat + b.toNat > 255))

/-- NOT-borrow of `a - b`: 0 exactly when b > a (R119, R127, R129). -/
def notBorrowFlag (a b : Byte) : Byte := flagByte (!decide (b.toNat > a.toNat))

/-- The bit `8XY6` shifts out: bit 0 of the old value (R128). -/
def lowBitFlag (a : Byte) : Byte := flagByte (a.getLsbD 0)

/-- The bit `8XYE` shifts out: bit 7 of the old value (R130). -/
def highBitFlag (a : Byte) : Byte := flagByte (a.getLsbD 7)

/-- Overflow of `FX1E`: 1 when the unclamped sum exceeds 0xFFF (R141, the spec's decision D9, log 10). -/
def indexOverflowFlag (i : Word) (b : Byte) : Byte := flagByte (decide (i.toNat + b.toNat > 0x0FFF))

/-- `(a + b) mod 256` (R119). -/
def add8 (a b : Byte) : Byte := a + b

/-- `(a - b) mod 256` (R119). -/
def sub8 (a b : Byte) : Byte := a - b

/-- A shift right by one, the vacated bit 0 (R119, R128). -/
def shiftRight1 (a : Byte) : Byte := a >>> 1

/-- `(a << 1) mod 256`, the vacated bit 0 (R119, R130). -/
def shiftLeft1 (a : Byte) : Byte := a <<< 1

end Sys2Proof.Machine
end

