-- ==== Sys2Proof/WellFormed.lean ====
section
/-! DEFINITION. Which terms of `Instr` are instructions: every one but a `SYS` that is `CLS` or `RETURN`
and an `UNK` whose word another row matches. -/

namespace Sys2Proof

/-- The words that reach the last row, UNK, exactly as R87 lists them: `5XYN` and `9XYN` with N != 0, `8XYN` with N in
8, 9, A, B, C, D, F, `EXNN` and `FXNN` with an NN that no row has. -/
def unrecognised (w : Word) : Bool :=
  let t := w.toNat / 4096
  let n := w.toNat % 16
  let nn := w.toNat % 256
  ((t == 5 || t == 9) && n != 0)
  || (t == 8 && [0x8, 0x9, 0xA, 0xB, 0xC, 0xD, 0xF].contains n)
  || (t == 0xE && !([0x9E, 0xA1].contains nn))
  || (t == 0xF && !([0x07, 0x0A, 0x15, 0x18, 0x1E, 0x29, 0x33, 0x55, 0x65].contains nn))

/-- An instruction that has a word of its own. "`SYS 0x0E0` and `SYS 0x0EE` are not expressible because those words are
`CLS` and `RETURN`" (R91). -/
def Instr.wellFormed : Instr → Bool
  | .sys nnn => nnn != 0x0E0#12 && nnn != 0x0EE#12
  | .unk w => unrecognised w
  | .cls | .ret | .jp _ | .call _ | .seImm _ _ | .sneImm _ _ | .seReg _ _ | .ldImm _ _ | .addImm _ _ | .ldReg _ _
  | .orReg _ _ | .andReg _ _ | .xorReg _ _ | .addReg _ _ | .subReg _ _ | .shr _ _ | .subnReg _ _ | .shl _ _
  | .sneReg _ _ | .ldI _ | .jpV0 _ | .rnd _ _ | .drw _ _ _ | .skp _ | .sknp _ | .ldVxDt _ | .ldVxK _ | .ldDtVx _
  | .ldStVx _ | .addIVx _ | .ldFVx _ | .ldBVx _ | .storeRegs _ | .loadRegs _ => true

end Sys2Proof
end

