-- ==== Sys2Proof/Decode.lean ====
section
/-! DEFINITION. Decoding (R80 to R90): the fields of a word, the dispatch, the opcode map as a table, the byte order of
an instruction in memory, and the encoder. -/

namespace Sys2Proof

/-! ### The fields of an opcode (R81) -/

/-- T, bits 15:12, the family selector. -/
def fieldT (w : Word) : BitVec 4 := w.extractLsb' 12 4
/-- X, bits 11:8, a register index. -/
def fieldX (w : Word) : Reg := (w.extractLsb' 8 4).toFin
/-- Y, bits 7:4, a register index. -/
def fieldY (w : Word) : Reg := (w.extractLsb' 4 4).toFin
/-- N, bits 3:0. -/
def fieldN (w : Word) : BitVec 4 := w.extractLsb' 0 4
/-- NN, bits 7:0. -/
def fieldNN (w : Word) : Byte := w.extractLsb' 0 8
/-- NNN, bits 11:0. -/
def fieldNNN (w : Word) : BitVec 12 := w.extractLsb' 0 12

/-! ### Dispatch (R85): by the top nibble, then on N or NN -/

/-- Family 8, by N; the N that no row has are UNK (R87). -/
def decodeArith (w : Word) : Instr :=
  match (fieldN w).toNat with
  | 0x0 => .ldReg (fieldX w) (fieldY w)
  | 0x1 => .orReg (fieldX w) (fieldY w)
  | 0x2 => .andReg (fieldX w) (fieldY w)
  | 0x3 => .xorReg (fieldX w) (fieldY w)
  | 0x4 => .addReg (fieldX w) (fieldY w)
  | 0x5 => .subReg (fieldX w) (fieldY w)
  | 0x6 => .shr (fieldX w) (fieldY w)
  | 0x7 => .subnReg (fieldX w) (fieldY w)
  | 0xE => .shl (fieldX w) (fieldY w)
  | _ => .unk w

/-- Family E, by NN. -/
def decodeKey (w : Word) : Instr :=
  match (fieldNN w).toNat with
  | 0x9E => .skp (fieldX w)
  | 0xA1 => .sknp (fieldX w)
  | _ => .unk w

/-- Family F, by NN. -/
def decodeMisc (w : Word) : Instr :=
  match (fieldNN w).toNat with
  | 0x07 => .ldVxDt (fieldX w)
  | 0x0A => .ldVxK (fieldX w)
  | 0x15 => .ldDtVx (fieldX w)
  | 0x18 => .ldStVx (fieldX w)
  | 0x1E => .addIVx (fieldX w)
  | 0x29 => .ldFVx (fieldX w)
  | 0x33 => .ldBVx (fieldX w)
  | 0x55 => .storeRegs (fieldX w)
  | 0x65 => .loadRegs (fieldX w)
  | _ => .unk w

/-- The decoder, a pure function of the word with "no failure modes" (R81, R90). Families 5 and 9 fix N = 0 and family 0
fixes all sixteen bits of its two rows (R85, the spec's decision D12, conflict C4; log 12). -/
def decodeWord (w : Word) : Instr :=
  match (fieldT w).toNat with
  | 0x0 => if w = 0x00E0#16 then .cls else if w = 0x00EE#16 then .ret else .sys (fieldNNN w)
  | 0x1 => .jp (fieldNNN w)
  | 0x2 => .call (fieldNNN w)
  | 0x3 => .seImm (fieldX w) (fieldNN w)
  | 0x4 => .sneImm (fieldX w) (fieldNN w)
  | 0x5 => if fieldN w = 0#4 then .seReg (fieldX w) (fieldY w) else .unk w
  | 0x6 => .ldImm (fieldX w) (fieldNN w)
  | 0x7 => .addImm (fieldX w) (fieldNN w)
  | 0x8 => decodeArith w
  | 0x9 => if fieldN w = 0#4 then .sneReg (fieldX w) (fieldY w) else .unk w
  | 0xA => .ldI (fieldNNN w)
  | 0xB => .jpV0 (fieldNNN w)
  | 0xC => .rnd (fieldX w) (fieldNN w)
  | 0xD => .drw (fieldX w) (fieldY w) (fieldN w)
  | 0xE => decodeKey w
  | _ => decodeMisc w

/-! ### The opcode map (R86) as data -/

/-- One row of R86: a word matches when its bits under `mask` are `value`; `build` reads the row's fields. -/
structure OpcodeRow where
  mask : Word
  value : Word
  build : Word → Instr

/-- Rows 1 to 10 of R86. -/
def opcodeRowsFlow : List OpcodeRow :=
  [ ⟨0xFFFF, 0x00E0, fun _ => .cls⟩,
    ⟨0xFFFF, 0x00EE, fun _ => .ret⟩,
    ⟨0xF000, 0x0000, fun w => .sys (fieldNNN w)⟩,
    ⟨0xF000, 0x1000, fun w => .jp (fieldNNN w)⟩,
    ⟨0xF000, 0x2000, fun w => .call (fieldNNN w)⟩,
    ⟨0xF000, 0x3000, fun w => .seImm (fieldX w) (fieldNN w)⟩,
    ⟨0xF000, 0x4000, fun w => .sneImm (fieldX w) (fieldNN w)⟩,
    ⟨0xF00F, 0x5000, fun w => .seReg (fieldX w) (fieldY w)⟩,
    ⟨0xF000, 0x6000, fun w => .ldImm (fieldX w) (fieldNN w)⟩,
    ⟨0xF000, 0x7000, fun w => .addImm (fieldX w) (fieldNN w)⟩ ]

/-- Rows 11 to 24 of R86. -/
def opcodeRowsArith : List OpcodeRow :=
  [ ⟨0xF00F, 0x8000, fun w => .ldReg (fieldX w) (fieldY w)⟩,
    ⟨0xF00F, 0x8001, fun w => .orReg (fieldX w) (fieldY w)⟩,
    ⟨0xF00F, 0x8002, fun w => .andReg (fieldX w) (fieldY w)⟩,
    ⟨0xF00F, 0x8003, fun w => .xorReg (fieldX w) (fieldY w)⟩,
    ⟨0xF00F, 0x8004, fun w => .addReg (fieldX w) (fieldY w)⟩,
    ⟨0xF00F, 0x8005, fun w => .subReg (fieldX w) (fieldY w)⟩,
    ⟨0xF00F, 0x8006, fun w => .shr (fieldX w) (fieldY w)⟩,
    ⟨0xF00F, 0x8007, fun w => .subnReg (fieldX w) (fieldY w)⟩,
    ⟨0xF00F, 0x800E, fun w => .shl (fieldX w) (fieldY w)⟩,
    ⟨0xF00F, 0x9000, fun w => .sneReg (fieldX w) (fieldY w)⟩,
    ⟨0xF000, 0xA000, fun w => .ldI (fieldNNN w)⟩,
    ⟨0xF000, 0xB000, fun w => .jpV0 (fieldNNN w)⟩,
    ⟨0xF000, 0xC000, fun w => .rnd (fieldX w) (fieldNN w)⟩,
    ⟨0xF000, 0xD000, fun w => .drw (fieldX w) (fieldY w) (fieldN w)⟩ ]

/-- Rows 25 to 36 of R86; the last is the catch-all UNK. -/
def opcodeRowsMisc : List OpcodeRow :=
  [ ⟨0xF0FF, 0xE09E, fun w => .skp (fieldX w)⟩,
    ⟨0xF0FF, 0xE0A1, fun w => .sknp (fieldX w)⟩,
    ⟨0xF0FF, 0xF007, fun w => .ldVxDt (fieldX w)⟩,
    ⟨0xF0FF, 0xF00A, fun w => .ldVxK (fieldX w)⟩,
    ⟨0xF0FF, 0xF015, fun w => .ldDtVx (fieldX w)⟩,
    ⟨0xF0FF, 0xF018, fun w => .ldStVx (fieldX w)⟩,
    ⟨0xF0FF, 0xF01E, fun w => .addIVx (fieldX w)⟩,
    ⟨0xF0FF, 0xF029, fun w => .ldFVx (fieldX w)⟩,
    ⟨0xF0FF, 0xF033, fun w => .ldBVx (fieldX w)⟩,
    ⟨0xF0FF, 0xF055, fun w => .storeRegs (fieldX w)⟩,
    ⟨0xF0FF, 0xF065, fun w => .loadRegs (fieldX w)⟩,
    ⟨0x0000, 0x0000, fun w => .unk w⟩ ]

/-- The 36 rows of R86 in first-match order. -/
def opcodeRows : List OpcodeRow := opcodeRowsFlow ++ opcodeRowsArith ++ opcodeRowsMisc

/-- "a row of rule R86 matches op when `(op & mask) == match`" (R85). -/
def OpcodeRow.selects (r : OpcodeRow) (w : Word) : Bool := w &&& r.mask == r.value

/-- "the instruction executed is the first row, in the order of rule R86, that matches" (R85). The machine runs
`decodeWord`; that the two agree is stated (Obligations.DispatchIsFirstMatchInOpcodeMap). -/
def decodeByTable (w : Word) : Instr :=
  match opcodeRows.find? (·.selects w) with
  | some r => r.build w
  | none => .unk w

/-! ### An instruction in memory (R63, R80): two bytes, high byte first -/

/-- `{hi, lo}`: the byte at the lower address is the high byte (R63). -/
def wordOfBytes (hi lo : Byte) : Word := hi ++ lo
/-- The byte {T, X} (R81). -/
def highByte (w : Word) : Byte := w.extractLsb' 8 8
/-- The byte {Y, N} (R81). -/
def lowByte (w : Word) : Byte := w.extractLsb' 0 8

/-- Why bytes are no instruction: an instruction is two bytes long (R80). -/
inductive DecodeError where
  /-- Fewer than two bytes. -/
  | truncated
  deriving DecidableEq, Repr

/-- The instruction at the front of a byte sequence, with the rest of the bytes. -/
def decodeBytes : List Byte → Except DecodeError (Instr × List Byte)
  | hi :: lo :: rest => .ok (decodeWord (wordOfBytes hi lo), rest)
  | [_] => .error .truncated
  | [] => .error .truncated

/-! ### The encoder, by the formats of R82 -/

/-- Format A: T, NNN. -/
def formatA (t : BitVec 4) (nnn : BitVec 12) : Word := t ++ nnn
/-- Format I: T, X, NN. Format U is this one with a fixed function code in NN. -/
def formatI (t : BitVec 4) (x : Reg) (nn : Byte) : Word := t ++ (BitVec.ofFin x : BitVec 4) ++ nn
/-- Format D: T, X, Y, N. Format R is this one with a fixed function code in N. -/
def formatD (t : BitVec 4) (x y : Reg) (n : BitVec 4) : Word :=
  t ++ (BitVec.ofFin x : BitVec 4) ++ (BitVec.ofFin y : BitVec 4) ++ n

/-- The word of an instruction (R82, R86). -/
def encode : Instr → Word
  | .cls => 0x00E0
  | .ret => 0x00EE
  | .sys nnn => formatA 0x0 nnn
  | .jp nnn => formatA 0x1 nnn
  | .call nnn => formatA 0x2 nnn
  | .seImm x nn => formatI 0x3 x nn
  | .sneImm x nn => formatI 0x4 x nn
  | .seReg x y => formatD 0x5 x y 0x0
  | .ldImm x nn => formatI 0x6 x nn
  | .addImm x nn => formatI 0x7 x nn
  | .ldReg x y => formatD 0x8 x y 0x0
  | .orReg x y => formatD 0x8 x y 0x1
  | .andReg x y => formatD 0x8 x y 0x2
  | .xorReg x y => formatD 0x8 x y 0x3
  | .addReg x y => formatD 0x8 x y 0x4
  | .subReg x y => formatD 0x8 x y 0x5
  | .shr x y => formatD 0x8 x y 0x6
  | .subnReg x y => formatD 0x8 x y 0x7
  | .shl x y => formatD 0x8 x y 0xE
  | .sneReg x y => formatD 0x9 x y 0x0
  | .ldI nnn => formatA 0xA nnn
  | .jpV0 nnn => formatA 0xB nnn
  | .rnd x nn => formatI 0xC x nn
  | .drw x y n => formatD 0xD x y n
  | .skp x => formatI 0xE x 0x9E
  | .sknp x => formatI 0xE x 0xA1
  | .ldVxDt x => formatI 0xF x 0x07
  | .ldVxK x => formatI 0xF x 0x0A
  | .ldDtVx x => formatI 0xF x 0x15
  | .ldStVx x => formatI 0xF x 0x18
  | .addIVx x => formatI 0xF x 0x1E
  | .ldFVx x => formatI 0xF x 0x29
  | .ldBVx x => formatI 0xF x 0x33
  | .storeRegs x => formatI 0xF x 0x55
  | .loadRegs x => formatI 0xF x 0x65
  | .unk w => w

/-- An instruction's two bytes in memory order. -/
def encodeBytes (i : Instr) : List Byte := [highByte (encode i), lowByte (encode i)]

/-! ### The opcode table's numbering of bits -/

/-- The word that the table's bits `w` (the low `nbits` of them, bits above being 0) stand for: bit 0 of the table is
bit 0 of the one 16-bit word (R9, R80). -/
def tableWord (nbits w : Nat) : Word := BitVec.ofNat 16 (w % 2 ^ nbits)

/-- The instruction the decoder reads from the table's bits, laid out in memory order. -/
def decodeTableWord (nbits w : Nat) : Option Instr :=
  match decodeBytes [highByte (tableWord nbits w), lowByte (tableWord nbits w)] with
  | .ok (i, _) => some i
  | .error _ => none

end Sys2Proof
end

