-- ==== Sys2Proof/Config.lean ====
section
/-! DEFINITION. What is fixed for the machine (R6) and the one value the spec leaves free (R8, R138).
The font's base, stride and bytes (R7) stand in Machine/Memory.lean. CYCLE_RATE and TIMER_HZ are read by no rule
(R8, R214) and have no constant here (log 21). -/

namespace Sys2Proof.Config

/-- MEM_SIZE (R6): addresses 0x000 to 0xFFF. -/
abbrev memSize : Nat := 4096

/-- PROG_BASE (R6): first byte of the program and reset value of PC. -/
abbrev progBase : Nat := 0x200

/-- ROM_MAX (R6): the largest ROM the loader accepts. -/
abbrev romMax : Nat := 3584

/-- The highest PC from which an instruction can be fetched (R22, R183). -/
abbrev lastFetchPc : Nat := 0x0FFE

/-- RAND (R8, R138): the free byte of the n-th executed `CXNN` for which the run supplies no draw of its own
(`State.draws`). It has no body: no proof can know a value of it. DESIGN CHOICE of form, log 2: safe. -/
opaque freeByte : Nat → Byte

end Sys2Proof.Config
end

