-- ==== Sys2Proof/Machine/State.lean ====
section
/-! DEFINITION. Everything the spec gives the machine (10_state.md), the inputs of a run that a deterministic step must
read, the reasons a step can stop, and the state after reset. -/

namespace Sys2Proof.Machine

/-- MEM (R60): (address, byte) pairs in one canonical form, `Memory.wf` of Machine/Memory.lean. An address that is not
listed reads as the reset contents (`Memory.background`). -/
abbrev Memory := List Host.Cell

/-- FB (R41): 32 rows, each of 64 one-bit pixels; `fb[y][x]`, y = 0 the top row, x = 0 the left column (R42). -/
abbrev Framebuffer := Vector (Vector Bool 64) 32

/-- MODE (R38): the run state of the core. It is no privilege level (R189). -/
inductive Mode where
  /-- Cycle events execute instructions. -/
  | run
  /-- An `FX0A` waits for a key-down event. -/
  | wait
  /-- A fatal fault occurred; only Reset leaves it (R187). -/
  | halt
  deriving DecidableEq, Repr

/-- FAULT.kind (R40): none, or one of the three fatal faults of R180. -/
inductive FaultKind where
  | none
  | stackOverflow
  | stackUnderflow
  | fetchOob
  deriving DecidableEq, Repr

/-- FAULT (R40): the fault record the host reads. -/
structure FaultRecord where
  kind : FaultKind
  /-- The PC at which the fault was raised. -/
  pc : Word
  /-- The faulting opcode; meaningful when `opcodeValid`. -/
  opcode : Word
  /-- False for FETCH_OOB, "where no opcode could be fetched". -/
  opcodeValid : Bool
  deriving DecidableEq, Repr

/-- The four events that change the state (R20). -/
inductive Event where
  /-- The core fetches and executes one instruction (R22). -/
  | cycle
  /-- The 60 Hz timer tick (R173). -/
  | tick
  /-- The input host sets key `k` to pressed (true) or released (R160, R164). -/
  | setKey (k : Key) (pressed : Bool)
  /-- The reset host loads a ROM and starts (R200). -/
  | reset (rom : List Byte)
  deriving DecidableEq, Repr

/-- The whole machine. The fields up to `fault` are the spec's; `schedule`, `draws` and `drawCount` are the MODEL's own:
the inputs of a run (R8, R25) that the one deterministic step reads. -/
structure State where
  /-- V0 to VF (R26); V[0xF] doubles as the flag (R32). -/
  v : Vector Byte 16
  /-- The index register, all 16 bits kept (R34). -/
  i : Word
  /-- The program counter (R28), never masked (R30). -/
  pc : Word
  /-- The delay timer (R37). -/
  dt : Byte
  /-- The sound timer (R37). -/
  st : Byte
  /-- STACK[0..15] (R35): return addresses, the live ones below `sp`. -/
  stack : Vector Word 16
  /-- SP (R35): the number of live stack entries, 0 to 16. -/
  sp : Fin 17
  /-- MEM (R60). -/
  mem : Memory
  /-- FB (R41). -/
  fb : Framebuffer
  /-- KEY[0..15] (R41, R160): true is pressed. -/
  key : Vector Bool 16
  /-- MODE (R38). -/
  mode : Mode
  /-- WAITX (R39): the destination register of the waiting `FX0A`. -/
  waitx : Reg
  /-- FAULT (R40). -/
  fault : FaultRecord
  /-- The host's schedule (R8, R212): the events to come, the next one first; when it is empty the next event is a
  Cycle. DESIGN CHOICE, log 1: safe. -/
  schedule : List Event
  /-- RAND (R8, R138): random bytes the run supplies, the next one first. DESIGN CHOICE, log 2: safe. -/
  draws : List Byte
  /-- How many draws have been taken; numbers the free byte of a draw that `draws` does not supply. DESIGN CHOICE,
  log 2: safe. -/
  drawCount : Nat
  deriving DecidableEq, Repr

/-- Reasons for a step to stop with a fault: there is none. The three fatal faults of R180 are no stop of the model: R185
gives each its whole effect (MODE, FAULT), so they are next states, and in HALT every further event is a next state that
changes nothing (R187). The type is empty so that Lean itself knows that no step stops this way (log 3). -/
inductive Fault
  deriving DecidableEq, Repr

/-- Reasons for a step to be refused. -/
inductive Refusal where
  /-- An instruction without a meaning; raised by no arm of `exec`. Safe. -/
  | notModelled (mnemonic : String)
  /-- The event Reset(rom) with a ROM of more than 3584 bytes: "refused and produces no machine state at all" (R195,
  R201). Raised by `resetEvent` only, never by an instruction. Safe: it is the spec's own refusal. -/
  | romTooLarge (length : Nat)
  deriving DecidableEq, Repr

/-- The machine right after Reset with an empty ROM (R44 to R47, R200), nothing scheduled and no draw supplied.
The spec gives PC and the empty stack; the zeros are its decision D3 (log 4); FAULT.pc, FAULT.opcode and
FAULT.opcode_valid have no reset value in the spec (DESIGN CHOICE zero, log 5: unsafe). Memory lists nothing: unlisted
bytes read as the reset contents. -/
def State.reset : State where
  v := Vector.replicate 16 0
  i := 0
  pc := 0x0200
  dt := 0
  st := 0
  stack := Vector.replicate 16 0
  sp := 0
  mem := []
  fb := Vector.replicate 32 (Vector.replicate 64 false)
  key := Vector.replicate 16 false
  mode := .run
  waitx := 0
  fault := { kind := .none, pc := 0, opcode := 0, opcodeValid := false }
  schedule := []
  draws := []
  drawCount := 0

end Sys2Proof.Machine
end

