-- ==== Sys2Proof/Machine/Memory.lean ====
section
/-! DEFINITION. MEM (20_memory.md): the font, what an unlisted byte reads as, reading and writing a byte, the canonical
form, the loader's image. -/

namespace Sys2Proof.Machine

/-! ### The font (R7, R68) -/

/-- FONT_BASE, the spec's decision D4 (log 6). -/
def fontBase : Nat := 0x050

/-- FONT_STRIDE, bytes per glyph, the spec's decision D5 (log 6). -/
def fontStride : Nat := 5

/-- FONT_DATA, the 80 glyph bytes of R68, which the spec takes from general knowledge (D5, G1). PRESUMED, log 6:
unsafe for claims about glyph bytes. -/
def fontData : List Byte :=
  [ 0xF0, 0x90, 0x90, 0x90, 0xF0,  0x20, 0x60, 0x20, 0x20, 0x70,
    0xF0, 0x10, 0xF0, 0x80, 0xF0,  0xF0, 0x10, 0xF0, 0x10, 0xF0,
    0x90, 0x90, 0xF0, 0x10, 0x10,  0xF0, 0x80, 0xF0, 0x10, 0xF0,
    0xF0, 0x80, 0xF0, 0x90, 0xF0,  0xF0, 0x10, 0x20, 0x40, 0x40 ] ++
  [ 0xF0, 0x90, 0xF0, 0x90, 0xF0,  0xF0, 0x90, 0xF0, 0x10, 0xF0,
    0xF0, 0x90, 0xF0, 0x90, 0x90,  0xE0, 0x90, 0xE0, 0x90, 0xE0,
    0xF0, 0x80, 0x80, 0x80, 0xF0,  0xE0, 0x90, 0x90, 0x90, 0xE0,
    0xF0, 0x80, 0xF0, 0x80, 0xF0,  0xF0, 0x80, 0xF0, 0x80, 0x80 ]

/-! ### Bytes -/

/-- What an address that memory does not list reads as: the reset contents (R45, R61), the font at 0x050 to 0x09F and
0x00 elsewhere. The zeros are the spec's decision D3 (log 4). -/
def Memory.background (a : Nat) : Byte :=
  if fontBase ≤ a then fontData.getD (a - fontBase) 0x00 else 0x00

/-- `MemRead(addr, 1)` (R10). Every caller's address is in 0x000 to 0xFFF (R62). -/
def Memory.read : Memory → Nat → Byte
  | [], a => Memory.background a
  | (b, v) :: rest, a => if a = b then v else Memory.read rest a

/-- A cell put at its place in the order of addresses. -/
def Memory.insert (a : Nat) (v : Byte) : Memory → Memory
  | [] => [(a, v)]
  | (b, u) :: rest => if a < b then (a, v) :: (b, u) :: rest else (b, u) :: Memory.insert a v rest

/-- `MemWrite(addr, 1, v)` (R10): any address can be written (R73, the spec's decision D21, log 17). Writing what an
unlisted address reads as removes the entry, so that equal memories are equal lists. -/
def Memory.write (m : Memory) (a : Nat) (v : Byte) : Memory :=
  let others := m.filter (fun c => c.1 != a)
  if v = Memory.background a then others else Memory.insert a v others

/-- The canonical form from address `lo` on: addresses strictly rising and inside memory, no entry equal to what an
unlisted address reads as. -/
def Memory.wfFrom (lo : Nat) : Memory → Bool
  | [] => true
  | (a, v) :: rest => decide (lo ≤ a) && decide (a < Config.memSize) && (v != Memory.background a)
      && Memory.wfFrom (a + 1) rest

/-- The canonical form of memory (log 22). -/
def Memory.wf (m : Memory) : Bool := Memory.wfFrom 0 m

/-- Consecutive bytes written over the reset contents from address `a` on. -/
def Memory.image (a : Nat) : List Byte → Memory
  | [] => []
  | b :: rest =>
    if b = Memory.background a then Memory.image (a + 1) rest else (a, b) :: Memory.image (a + 1) rest

/-- The memory after Reset(rom): `MEM[0x200 + i] = rom[i]`, the reset contents elsewhere (R69, R200). -/
def Memory.ofRom (rom : List Byte) : Memory := Memory.image Config.progBase rom

end Sys2Proof.Machine
end

