-- ==== Sys2Proof/Machine/Operands.lean ====
section
/-! DEFINITION. The operand forms (R83, R146): registers, zero-extended immediates, effective addresses, key and digit
numbers, the decimal digits of a byte. -/

namespace Sys2Proof.Machine

/-- `V[r]` (R26): every index is an ordinary register, none is hard-wired. -/
def State.getV (s : State) (r : Reg) : Byte := s.v[r]

/-- `zext_16(NNN)` (R83): an absolute address or the literal of `ANNN`. -/
def zext16 (nnn : BitVec 12) : Word := nnn.setWidth 16

/-- `zext_16(V[r])` (R83, R104). -/
def zextByte (b : Byte) : Word := b.setWidth 16

/-- `ea(k) = (I + k) mod 4096` (R64, the spec's decision D8, log 8), over the whole 16 bits of I. -/
def ea (i : Word) (k : Nat) : Nat := (i.toNat + k) % Config.memSize

/-- The low nibble of a byte, as the number of a key (R161, decision D7) or of a digit (R142, decision D6); log 9. -/
def lowNibble (b : Byte) : Fin 16 := ⟨b.toNat % 16, Nat.mod_lt _ (by decide)⟩

/-- The address of the glyph of a digit: `FONT_BASE + 5 * d` (R142). -/
def fontAddress (d : Fin 16) : Word := BitVec.ofNat 16 (fontBase + fontStride * d.val)

/-- The three decimal digits of a byte, hundreds first, each a byte 0 to 9 (R143). -/
def decimalDigits (b : Byte) : List Byte :=
  [BitVec.ofNat 8 (b.toNat / 100), BitVec.ofNat 8 (b.toNat / 10 % 10), BitVec.ofNat 8 (b.toNat % 10)]

/-- The registers V0 to VX, V0 first (R144). -/
def State.regsUpTo (s : State) (x : Reg) : List Byte := s.v.toList.take (x.val + 1)

end Sys2Proof.Machine
end

