-- ==== Sys2Proof/Machine/Ops.lean ====
section
/-! DEFINITION. The named operations every meaning is written over: registers, PC, the fetch, the call stack, taking a
fault, the key wait, the random draw, blocks of memory, pixels. Each takes the state as it stood when the Cycle event
began and gives the whole new state at once (the snapshot rule, R24). -/

namespace Sys2Proof.Machine

/-! ### Registers and PC -/

/-- VF, the flag register (R32). -/
abbrev vf : Reg := 15

/-- `V[r] <- b` (R10). -/
def State.setV (s : State) (r : Reg) (b : Byte) : State := { s with v := s.v.set r b }

/-- `V[x] <- result; V[0xF] <- flag`, the flag written last: with X = 0xF VF ends as the flag (R33, the spec's decision
D13, log 11). -/
def State.setVThenFlag (s : State) (x : Reg) (result flag : Byte) : State := (s.setV x result).setV vf flag

/-- `pc <- PC + 2` (R29). -/
def State.advance (s : State) : State := { s with pc := s.pc + 2 }

/-- `pc <- PC + 4` when the condition holds, `PC + 2` when not (R114). -/
def State.skipIf (s : State) (c : Bool) : State := { s with pc := if c then s.pc + 4 else s.pc + 2 }

/-- `pc <- target`, unchecked and unmasked (R30). -/
def State.jump (s : State) (target : Word) : State := { s with pc := target }

/-! ### The fetch (R22, R63, R183) -/

/-- Whether both bytes at PC are inside memory: PC <= 0x0FFE (R22). Parity does not matter (R65, decision D10, log 7). -/
def fetchable (pc : Word) : Bool := decide (pc.toNat ≤ Config.lastFetchPc)

/-- `MemRead(PC, 2)`: MEM[PC] is the high byte (R63). -/
def fetchWord (m : Memory) (pc : Word) : Word := wordOfBytes (m.read pc.toNat) (m.read (pc.toNat + 1))

/-! ### The call stack (R35, R36) -/

/-- Push a return address; none when 16 entries (STACK_DEPTH, R6) are live (R103). -/
def State.pushReturn (s : State) (ra : Word) : Option State :=
  if h : s.sp.val < 16 then
    some { s with stack := s.stack.set s.sp.val ra h, sp := ⟨s.sp.val + 1, by omega⟩ }
  else none

/-- Pop the newest return address; none when the stack is empty (R100). The slot keeps its stale value. -/
def State.popReturn (s : State) : Option (Word × State) :=
  if h : 0 < s.sp.val then
    some (s.stack[s.sp.val - 1]'(by omega), { s with sp := ⟨s.sp.val - 1, by omega⟩ })
  else none

/-! ### Taking a fault (R185). There is no return from one: only Reset leaves HALT (R187) -/

/-- The number of a fault kind, the spec's own numbering (R40, R180). -/
def FaultKind.code : FaultKind → Nat
  | .none => 0
  | .stackOverflow => 1
  | .stackUnderflow => 2
  | .fetchOob => 3

/-- `raise Fault(kind)` (R185): FAULT records the kind, the unchanged PC and the faulting opcode if there is one (it is
not written otherwise), MODE becomes HALT, and nothing else is written (the spec's decisions D18, D19, log 19). -/
def State.raiseFault (s : State) (kind : FaultKind) (op : Option Word) : State :=
  { s with
    mode := .halt
    fault := { kind := kind, pc := s.pc, opcode := op.getD s.fault.opcode, opcodeValid := op.isSome } }

/-! ### The key wait (R163, R164): the machine's one suspension, and the return from it -/

/-- `MODE <- WAIT; WAITX <- X`; PC, V and KEY are not touched (R163). -/
def State.enterWait (s : State) (x : Reg) : State := { s with mode := .wait, waitx := x }

/-- The wait completed by key `k`: `V[WAITX] <- k; pc <- PC + 2; MODE <- RUN` (R164). -/
def State.completeWait (s : State) (k : Key) : State :=
  { (s.setV s.waitx (BitVec.ofNat 8 k.val)).advance with mode := .run }

/-! ### The random draw (R138) -/

/-- `rand8()`: the next byte the run supplies, else a free byte (log 2). -/
def State.nextDraw (s : State) : Byte :=
  match s.draws with
  | r :: _ => r
  | [] => Config.freeByte s.drawCount

/-- The state with that draw taken. -/
def State.takeDraw (s : State) : State := { s with draws := s.draws.tail, drawCount := s.drawCount + 1 }

/-! ### Blocks of memory relative to I (R64, R144, R145) -/

/-- Bytes stored at `ea(k)`, `ea(k + 1)`, … -/
def Memory.storeFrom (m : Memory) (i : Word) (k : Nat) : List Byte → Memory
  | [] => m
  | b :: rest => Memory.storeFrom (m.write (ea i k) b) i (k + 1) rest

/-- `for k in 0 .. X: V[k] <- MemRead(ea(k), 1)`; the registers above VX keep their values (R145). -/
def State.loadRange (s : State) (x : Reg) : Vector Byte 16 :=
  Vector.ofFn fun k => if k ≤ x then s.mem.read (ea s.i k.val) else s.v[k]

/-! ### Pixels (R41, R151) -/

/-- The pixel in row y, column x; off the screen there is none, and the answer is false. -/
def Framebuffer.pixel (fb : Framebuffer) (y x : Nat) : Bool := if h : y < 32 ∧ x < 64 then fb[y][x] else false

/-- `FB[y][x] <- FB[y][x] ^ 1`. -/
def Framebuffer.flip (fb : Framebuffer) (y x : Nat) : Framebuffer :=
  if h : y < 32 ∧ x < 64 then fb.set y (fb[y].set x (!fb[y][x])) else fb

/-- The framebuffer with every pixel 0 (R150). -/
def Framebuffer.blank : Framebuffer := Vector.replicate 32 (Vector.replicate 64 false)

/-- One 1 bit of a sprite at (y, x), over the framebuffer and the collision flag so far: clipped off the bottom or the
right edge (the spec's decision D14, log 13), else the pixel is flipped, a collision if it was 1 (R151). -/
def drawPixel (y x : Nat) (acc : Framebuffer × Bool) : Framebuffer × Bool :=
  if y ≤ 31 ∧ x ≤ 63 then (acc.1.flip y x, acc.2 || acc.1.pixel y x) else acc

/-- The inner loop of R151: bit 7 - c of the sprite byte belongs to column x0 + c (the spec's decision D15, log 14). -/
def drawByte (y x0 : Nat) (b : Byte) (acc : Framebuffer × Bool) : Framebuffer × Bool :=
  (List.range 8).foldl (fun acc c => if b.getLsbD (7 - c) then drawPixel y (x0 + c) acc else acc) acc

/-- The outer loop of R151: sprite byte r, at `ea(r)`, is row y0 + r. -/
def drawSprite (m : Memory) (i : Word) (y0 x0 n : Nat) (acc : Framebuffer × Bool) : Framebuffer × Bool :=
  (List.range n).foldl (fun acc r => drawByte (y0 + r) x0 (m.read (ea i r)) acc) acc

end Sys2Proof.Machine
end

