-- ==== Sys2Proof/Machine/Alu.lean ====
section
/-! DEFINITION. Register loads and arithmetic-logic instructions, 6XNN to 8XYE (42_alu.md). -/

namespace Sys2Proof.Machine

/-- `LD Vx, nn` (R120). -/
def execLdImm (x : Reg) (nn : Byte) (s : State) : Host.Outcome State Fault Refusal := .next (s.setV x nn).advance

/-- `ADD Vx, nn` (R121): no flag. -/
def execAddImm (x : Reg) (nn : Byte) (s : State) : Host.Outcome State Fault Refusal :=
  .next (s.setV x (add8 (s.getV x) nn)).advance

/-- `LD Vx, Vy` (R122). -/
def execLdReg (x y : Reg) (s : State) : Host.Outcome State Fault Refusal := .next (s.setV x (s.getV y)).advance

/-- `OR Vx, Vy` (R123): VF is left as it was. -/
def execOrReg (x y : Reg) (s : State) : Host.Outcome State Fault Refusal :=
  .next (s.setV x (s.getV x ||| s.getV y)).advance

/-- `AND Vx, Vy` (R124). -/
def execAndReg (x y : Reg) (s : State) : Host.Outcome State Fault Refusal :=
  .next (s.setV x (s.getV x &&& s.getV y)).advance

/-- `XOR Vx, Vy` (R125). -/
def execXorReg (x y : Reg) (s : State) : Host.Outcome State Fault Refusal :=
  .next (s.setV x (s.getV x ^^^ s.getV y)).advance

/-- `ADD Vx, Vy` (R126): VF := carry. -/
def execAddReg (x y : Reg) (s : State) : Host.Outcome State Fault Refusal :=
  .next (s.setVThenFlag x (add8 (s.getV x) (s.getV y)) (carryFlag (s.getV x) (s.getV y))).advance

/-- `SUB Vx, Vy` (R127): VF := not borrow. -/
def execSubReg (x y : Reg) (s : State) : Host.Outcome State Fault Refusal :=
  .next (s.setVThenFlag x (sub8 (s.getV x) (s.getV y)) (notBorrowFlag (s.getV x) (s.getV y))).advance

/-- `SHR Vx` (R128): the Y field is ignored; VF := the bit shifted out. -/
def execShr (x _y : Reg) (s : State) : Host.Outcome State Fault Refusal :=
  .next (s.setVThenFlag x (shiftRight1 (s.getV x)) (lowBitFlag (s.getV x))).advance

/-- `SUBN Vx, Vy` (R129): VX := VY - VX, VF := not borrow. -/
def execSubnReg (x y : Reg) (s : State) : Host.Outcome State Fault Refusal :=
  .next (s.setVThenFlag x (sub8 (s.getV y) (s.getV x)) (notBorrowFlag (s.getV y) (s.getV x))).advance

/-- `SHL Vx` (R130): the Y field is ignored; VF := the bit shifted out. -/
def execShl (x _y : Reg) (s : State) : Host.Outcome State Fault Refusal :=
  .next (s.setVThenFlag x (shiftLeft1 (s.getV x)) (highBitFlag (s.getV x))).advance

end Sys2Proof.Machine
end

