-- ==== Sys2Proof/Machine/Display.lean ====
section
/-! DEFINITION. 00E0 and DXYN (45_display.md). -/

namespace Sys2Proof.Machine

/-- `CLS` (R150). -/
def execCls (s : State) : Host.Outcome State Fault Refusal := .next { s with fb := Framebuffer.blank }.advance

/-- `DRW Vx, Vy, n` (R151): the start coordinate wraps, the sprite is XORed row by row, VF := collision, always
written. -/
def execDrw (x y : Reg) (n : BitVec 4) (s : State) : Host.Outcome State Fault Refusal :=
  let drawn := drawSprite s.mem s.i ((s.getV y).toNat % 32) ((s.getV x).toNat % 64) n.toNat (s.fb, false)
  .next ({ s with fb := drawn.1 }.setV vf (flagByte drawn.2)).advance

end Sys2Proof.Machine
end

