-- ==== Sys2Proof/Machine/Flow.lean ====
section
/-! DEFINITION. 00EE, 0NNN, 1NNN, 2NNN, BNNN and the unrecognised words (40_system_flow.md). -/

namespace Sys2Proof.Machine

/-- `RETURN` (R100): pop the return address into PC; STACK_UNDERFLOW when the stack is empty (R182). -/
def execRet (s : State) : Host.Outcome State Fault Refusal :=
  match s.popReturn with
  | some (ra, s') => .next (s'.jump ra)
  | none => .next (s.raiseFault .stackUnderflow (some (encode .ret)))

/-- `SYS nnn` (R101): no operation. -/
def execSys (_nnn : BitVec 12) (s : State) : Host.Outcome State Fault Refusal := .next s.advance

/-- `JP nnn` (R102). -/
def execJp (nnn : BitVec 12) (s : State) : Host.Outcome State Fault Refusal := .next (s.jump (zext16 nnn))

/-- `CALL nnn` (R103): push PC + 2, the return address (R36, the spec's decision D11, log 15), and jump;
STACK_OVERFLOW when 16 entries are live (R181). -/
def execCall (nnn : BitVec 12) (s : State) : Host.Outcome State Fault Refusal :=
  match s.pushReturn (s.pc + 2) with
  | some s' => .next (s'.jump (zext16 nnn))
  | none => .next (s.raiseFault .stackOverflow (some (encode (.call nnn))))

/-- `JP V0, nnn` (R104): the whole sum, no masking; always V0. -/
def execJpV0 (nnn : BitVec 12) (s : State) : Host.Outcome State Fault Refusal :=
  .next (s.jump (zext16 nnn + zextByte (s.getV 0)))

/-- `UNK` (R105): a no-op that advances PC. -/
def execUnk (_w : Word) (s : State) : Host.Outcome State Fault Refusal := .next s.advance

end Sys2Proof.Machine
end

