-- ==== Sys2Proof/Machine/Index.lean ====
section
/-! DEFINITION. The index register and memory instructions, ANNN, FX1E, FX29, FX33, FX55, FX65 (44_index_memory.md). -/

namespace Sys2Proof.Machine

/-- `LD I, nnn` (R140). -/
def execLdI (nnn : BitVec 12) (s : State) : Host.Outcome State Fault Refusal :=
  .next { s with i := zext16 nnn }.advance

/-- `ADD I, Vx` (R141): I keeps 16 bits, VF := 1 when the sum exceeds 0xFFF (the spec's decision D9, log 10). -/
def execAddIVx (x : Reg) (s : State) : Host.Outcome State Fault Refusal :=
  .next ({ s with i := s.i + zextByte (s.getV x) }.setV vf (indexOverflowFlag s.i (s.getV x))).advance

/-- `LD F, Vx` (R142): I := the address of the glyph of VX's low nibble. -/
def execLdFVx (x : Reg) (s : State) : Host.Outcome State Fault Refusal :=
  .next { s with i := fontAddress (lowNibble (s.getV x)) }.advance

/-- `LD B, Vx` (R143): the decimal digits of VX, hundreds first, at I, I + 1, I + 2. -/
def execLdBVx (x : Reg) (s : State) : Host.Outcome State Fault Refusal :=
  .next { s with mem := s.mem.storeFrom s.i 0 (decimalDigits (s.getV x)) }.advance

/-- `LD [I], Vx` (R144): V0 to VX stored from I on; I is not changed. -/
def execStoreRegs (x : Reg) (s : State) : Host.Outcome State Fault Refusal :=
  .next { s with mem := s.mem.storeFrom s.i 0 (s.regsUpTo x) }.advance

/-- `LD Vx, [I]` (R145): V0 to VX loaded from I on; I is not changed. -/
def execLoadRegs (x : Reg) (s : State) : Host.Outcome State Fault Refusal :=
  .next { s with v := s.loadRange x }.advance

end Sys2Proof.Machine
end

