-- ==== Sys2Proof/Machine/Keypad.lean ====
section
/-! DEFINITION. EX9E, EXA1, FX0A (46_keypad.md). -/

namespace Sys2Proof.Machine

/-- `SKP Vx` (R161): skip if the key named by VX's low nibble is pressed. -/
def execSkp (x : Reg) (s : State) : Host.Outcome State Fault Refusal :=
  .next (s.skipIf s.key[lowNibble (s.getV x)])

/-- `SKNP Vx` (R162): skip if that key is not pressed. -/
def execSknp (x : Reg) (s : State) : Host.Outcome State Fault Refusal :=
  .next (s.skipIf (!s.key[lowNibble (s.getV x)]))

/-- `LD Vx, K` (R163): enter the wait; a later SetKey event completes it (R164, `setKey` of Machine/Events.lean). -/
def execLdVxK (x : Reg) (s : State) : Host.Outcome State Fault Refusal := .next (s.enterWait x)

end Sys2Proof.Machine
end

