-- ==== Sys2Proof/Machine/Random.lean ====
section
/-! DEFINITION. CXNN (43_random.md). -/

namespace Sys2Proof.Machine

/-- `RND Vx, nn` (R138): VX := a fresh draw AND NN. -/
def execRnd (x : Reg) (nn : Byte) (s : State) : Host.Outcome State Fault Refusal :=
  .next (s.takeDraw.setV x (s.nextDraw &&& nn)).advance

end Sys2Proof.Machine
end

