-- ==== Sys2Proof/Machine/Timers.lean ====
section
/-! DEFINITION. FX07, FX15, FX18 (47_timers.md). -/

namespace Sys2Proof.Machine

/-- `LD Vx, DT` (R170). -/
def execLdVxDt (x : Reg) (s : State) : Host.Outcome State Fault Refusal := .next (s.setV x s.dt).advance

/-- `LD DT, Vx` (R171). -/
def execLdDtVx (x : Reg) (s : State) : Host.Outcome State Fault Refusal := .next { s with dt := s.getV x }.advance

/-- `LD ST, Vx` (R172). -/
def execLdStVx (x : Reg) (s : State) : Host.Outcome State Fault Refusal := .next { s with st := s.getV x }.advance

end Sys2Proof.Machine
end

