-- ==== Sys2Proof/Machine/Events.lean ====
section
/-! DEFINITION. The events of the other agents, Tick, SetKey and Reset(rom) (R20, R21), and the host's reads (R23). -/

namespace Sys2Proof.Machine

/-! ### Tick (R173) -/

/-- A timer at 0 stays at 0; it never wraps. -/
def countDown (b : Byte) : Byte := if b = 0 then 0 else b - 1

/-- The Tick event: DT and ST count down in RUN and in WAIT (R165), and nothing happens in HALT (R187). -/
def tick (s : State) : State :=
  match s.mode with
  | .run => { s with dt := countDown s.dt, st := countDown s.st }
  | .wait => { s with dt := countDown s.dt, st := countDown s.st }
  | .halt => s

/-! ### SetKey (R160, R164) -/

/-- `KEY[k] <- p`. -/
def State.writeKey (s : State) (k : Key) (pressed : Bool) : State := { s with key := s.key.set k pressed }

/-- The SetKey event: in RUN it writes KEY (R160); in WAIT it writes KEY, and a key that goes from released to pressed
completes the wait (R164, the spec's decision D17, log 16); in HALT it has no effect (R187). -/
def setKey (k : Key) (pressed : Bool) (s : State) : State :=
  match s.mode with
  | .run => s.writeKey k pressed
  | .wait => if pressed && !s.key[k] then (s.writeKey k pressed).completeWait k else s.writeKey k pressed
  | .halt => s

/-! ### Reset (R200, R201) -/

/-- The state that Reset(rom) produces "whatever the state before it was" (R200), with nothing scheduled. -/
def State.resetWith (rom : List Byte) : State := { State.reset with mem := Memory.ofRom rom }

/-- The Reset(rom) event: refused when the ROM is longer than 3584 bytes (R201, R195). The inputs still to come, the
schedule and the draws, are not state of the core (R25) and are kept (log 20). -/
def resetEvent (rom : List Byte) (s : State) : Host.Outcome State Fault Refusal :=
  if rom.length ≤ Config.romMax then
    .next { State.resetWith rom with schedule := s.schedule, draws := s.draws, drawCount := s.drawCount }
  else .refused (.romTooLarge rom.length)

/-! ### What the host may read between events (R23) -/

/-- `tone = (ST != 0)` (R174). -/
def State.tone (s : State) : Bool := s.st != 0

/-- All that the hosts can observe: the pixel grid, the sound timer with its tone, MODE and FAULT (R23). -/
structure HostView where
  fb : Framebuffer
  st : Byte
  tone : Bool
  mode : Mode
  fault : FaultRecord
  deriving DecidableEq, Repr

/-- The host's reads; they have no effect on the state (R23). -/
def State.hostView (s : State) : HostView :=
  { fb := s.fb, st := s.st, tone := s.tone, mode := s.mode, fault := s.fault }

end Sys2Proof.Machine
end

