-- ==== Sys2Proof/Machine/Cycle.lean ====
section
/-! DEFINITION. The Cycle event (R22) and the performing of one event (R21). -/

namespace Sys2Proof.Machine

/-- The Cycle event: nothing in WAIT or HALT; in RUN the fetch fault when PC > 0x0FFE, else the instruction at PC. -/
def cycle (s : State) : Host.Outcome State Fault Refusal :=
  match s.mode with
  | .wait => .next s
  | .halt => .next s
  | .run =>
    if fetchable s.pc then exec (decodeWord (fetchWord s.mem s.pc)) s
    else .next (s.raiseFault .fetchOob none)

/-- One event, atomically (R21). -/
def perform (e : Event) (s : State) : Host.Outcome State Fault Refusal :=
  match e with
  | .cycle => cycle s
  | .tick => .next (tick s)
  | .setKey k pressed => .next (setKey k pressed s)
  | .reset rom => resetEvent rom s

/-- The next event of the schedule, with the schedule after it; a Cycle when the schedule is empty (log 1). -/
def nextEvent (s : State) : Event × State :=
  match s.schedule with
  | [] => (.cycle, s)
  | e :: rest => (e, { s with schedule := rest })

/-- The state with the word `w` where the next step fetches: at PC, or at the program's start when no fetch at PC is
possible, with the core running and no event of another agent before the Cycle. -/
def State.placeWord (s : State) (w : Word) : State :=
  let pc := if fetchable s.pc then s.pc else BitVec.ofNat 16 Config.progBase
  { s with
    pc := pc
    mem := (s.mem.write pc.toNat (highByte w)).write (pc.toNat + 1) (lowByte w)
    mode := .run
    fault := { s.fault with kind := .none }
    schedule := [] }

end Sys2Proof.Machine
end

