-- ==== Sys2Proof/Machine/Step.lean ====
section
/-! DEFINITION. One step: the next event of the run (R21). -/

namespace Sys2Proof.Machine

/-- One step of the machine: the next scheduled event, a Cycle when none is scheduled. -/
def step (s : State) : Host.Outcome State Fault Refusal := perform (nextEvent s).1 (nextEvent s).2

/-- The state with an opcode-table word stored where the next step fetches (log 18). -/
def State.withFetchWord (s : State) (nbits w : Nat) : State := s.placeWord (tableWord nbits w)

end Sys2Proof.Machine
end

