-- ==== Sys2Proof/Safety.lean ====
section
/-! DEFINITION. What counts as a safe run, the invariants of reachable states (R48, R39), and what no one can observe
(R35, R39), in the terms the statements use. -/

namespace Sys2Proof.Machine

/-- No step within `n` from `s` ends in HALT or is refused: the machine raises none of its fatal faults (R180). -/
def SafeFor : Nat → State → Prop
  | 0, s => s.mode ≠ .halt
  | n + 1, s =>
    s.mode ≠ .halt ∧
      match step s with
      | .next t => SafeFor n t
      | .fault _ => False
      | .refused _ => False

/-- The ranges reachable states stay in (R48, R31, R36), the canonical form of memory, and what the wait register holds
while an `FX0A` waits (R39). The widths that R48 also lists hold by the types of `State`. -/
structure State.Inv (s : State) : Prop where
  mem_canonical : s.mem.wf = true
  pc_bound : s.pc.toNat ≤ 0x10FE
  live_entries : ∀ k : Fin 16, k.val < s.sp.val → 0x0002 ≤ s.stack[k].toNat ∧ s.stack[k].toNat ≤ 0x1000
  halt_iff_fault : s.mode = .halt ↔ s.fault.kind ≠ .none
  waiting_at : s.mode = .wait → s.pc.toNat ≤ 0x0FFE ∧ decodeWord (fetchWord s.mem s.pc) = .ldVxK s.waitx

/-- In HALT the state is still the one the fault was raised in (R185): the fault record names the fetch past the end of
memory, or the `CALL` with the stack full, or the `RETURN` with the stack empty, that stands at PC. -/
structure State.FaultReported (s : State) : Prop where
  report : s.mode = .halt → s.fault.pc = s.pc ∧
    ((s.fault.kind = .fetchOob ∧ s.fault.opcodeValid = false ∧ 0x0FFE < s.pc.toNat) ∨
     (s.fault.kind = .stackOverflow ∧ s.fault.opcodeValid = true ∧ s.pc.toNat ≤ 0x0FFE ∧ s.sp.val = 16 ∧
       s.fault.opcode = fetchWord s.mem s.pc ∧ ∃ nnn, decodeWord s.fault.opcode = .call nnn) ∨
     (s.fault.kind = .stackUnderflow ∧ s.fault.opcodeValid = true ∧ s.pc.toNat ≤ 0x0FFE ∧ s.sp.val = 0 ∧
       s.fault.opcode = fetchWord s.mem s.pc ∧ decodeWord s.fault.opcode = .ret))

/-- Two states that differ at most in the stale call-stack slots, those at index SP and above (R35). -/
structure State.SameButStaleSlots (s t : State) : Prop where
  rest : t = { s with stack := t.stack }
  live : ∀ k : Fin 16, k.val < s.sp.val → t.stack[k] = s.stack[k]

/-- Two states that differ at most in WAITX, and not in that while an `FX0A` waits (R39). -/
structure State.SameButIdleWaitx (s t : State) : Prop where
  rest : t = { s with waitx := t.waitx }
  waiting : s.mode = .wait → t.waitx = s.waitx

end Sys2Proof.Machine
end

