-- ==== Sys2Proof/Certificates/Slice0/Obligations.lean ====
section
/-! DEFINITION. The statements for the provers, each a `def Obligations.<Name> : Prop`, and the few notions they share.
Where a statement rests on a decision the spec marks as its own (92_eei_decisions.md), its docstring names it. -/

namespace Sys2Proof.Statements

open Sys2Proof.Machine

/-- Every word whose bits under `mask` are `value` is decoded by `build`: the "Encoding" clause of an instruction's rule. -/
def Encodes (mask value : Word) (build : Word → Instr) : Prop :=
  ∀ w : Word, w &&& mask = value → decodeWord w = build w

/-- The instruction completes: `exec` answers a next state, of which `P` holds. -/
def Completes (i : Instr) (s : State) (P : State → Prop) : Prop := ∃ t : State, exec i s = .next t ∧ P t

/-- Of the V registers only `x` may change, and it holds `b`. -/
def SetsOnly (s t : State) (x : Reg) (b : Byte) : Prop :=
  t.getV x = b ∧ ∀ r : Reg, r ≠ x → t.getV r = s.getV r

/-- VF holds the flag; the destination, if it is another register, holds the result; the other V registers are
unchanged. -/
def SetsWithFlag (s t : State) (x : Reg) (result flag : Nat) : Prop :=
  t.getV 15 = BitVec.ofNat 8 flag ∧ (x ≠ 15 → (t.getV x).toNat = result) ∧
    ∀ r : Reg, r ≠ x → r ≠ 15 → t.getV r = s.getV r

/-- The frame of an instruction on V registers: apart from them and PC the state is unchanged (I, DT, ST, the stack,
FB, KEY, MODE, WAITX, FAULT, the inputs to come), and every byte of memory reads as before. -/
def ChangesOnlyVAndPc (s t : State) : Prop :=
  t = { s with v := t.v, pc := t.pc } ∧ ∀ a, t.mem.read a = s.mem.read a

/-- The frame of an instruction that writes PC alone. -/
def ChangesOnlyPc (s t : State) : Prop := t = { s with pc := t.pc } ∧ ∀ a, t.mem.read a = s.mem.read a

/-- The six conditional skips (R29). -/
def isSkip : Instr → Bool
  | .seImm _ _ | .sneImm _ _ | .seReg _ _ | .sneReg _ _ | .skp _ | .sknp _ => true
  | _ => false

/-- The writers of V registers (R27): whether instruction `i` may write V[r] in the Cycle event that runs it. -/
def mayWriteV (i : Instr) (r : Reg) : Bool :=
  match i with
  | .ldImm x _ | .addImm x _ | .ldReg x _ | .orReg x _ | .andReg x _ | .xorReg x _ | .rnd x _ | .ldVxDt x => r == x
  | .addReg x _ | .subReg x _ | .shr x _ | .subnReg x _ | .shl x _ => r == x || r == 15
  | .drw _ _ _ | .addIVx _ => r == 15
  | .loadRegs x => decide (r ≤ x)
  | _ => false

/-- The seven instructions that write VF as a flag (R32). -/
def writesFlag : Instr → Bool
  | .addReg _ _ | .subReg _ _ | .shr _ _ | .subnReg _ _ | .shl _ _ | .drw _ _ _ | .addIVx _ => true
  | _ => false

/-- The instructions that read or write a timer (R37). -/
def usesTimers : Instr → Bool
  | .ldVxDt _ | .ldDtVx _ | .ldStVx _ => true
  | _ => false

/-- Whether the sprite of `DXYN`, drawn in state `s`, has a 1 bit on the screen at (row, col): inside the rows and columns
it covers, with bit 7 of a byte leftmost and nothing wrapped around an edge. -/
def spriteBit (s : State) (x y : Reg) (n : BitVec 4) (row : Fin 32) (col : Fin 64) : Bool :=
  let x0 := (s.getV x).toNat % 64
  let y0 := (s.getV y).toNat % 32
  decide (y0 ≤ row.val ∧ row.val < y0 + n.toNat ∧ x0 ≤ col.val ∧ col.val < x0 + 8) &&
    (s.mem.read ((s.i.toNat + (row.val - y0)) % 4096)).getLsbD (7 - (col.val - x0))

/-- Instructions executed one after the other. -/
def execAll : List Instr → State → Host.Outcome State Fault Refusal
  | [], s => .next s
  | i :: rest, s =>
    match exec i s with
    | .next t => execAll rest t
    | .fault r => .fault r
    | .refused r => .refused r

/-- `n` Tick events. -/
def ticks : Nat → State → State
  | 0, s => s
  | n + 1, s => ticks n (tick s)

/-- Two outcomes of the same kind, next states related by `R`, the same refusal. -/
def OutcomesRelated (R : State → State → Prop) :
    Host.Outcome State Fault Refusal → Host.Outcome State Fault Refusal → Prop
  | .next s, .next t => R s t
  | .fault a, .fault b => a = b
  | .refused a, .refused b => a = b
  | _, _ => False

end Sys2Proof.Statements

open Sys2Proof Sys2Proof.Machine Sys2Proof.Statements

/-! ### Encoding -/

/-- Every well-formed instruction, with every operand at every value, is read back from its word. -/
def Obligations.DecodeOfEncodeIsTheInstruction : Prop :=
  ∀ i : Instr, i.wellFormed = true → decodeWord (encode i) = i

/-- R84: "decoding followed by re-encoding the extracted fields reconstructs the original 16-bit value", as field
arithmetic and through the decoder and the encoder. -/
def Obligations.ReencodingReconstructsEveryWord : Prop :=
  ∀ w : Word,
    w.toNat = (fieldT w).toNat * 4096 + (fieldX w).val * 256 + (fieldY w).val * 16 + (fieldN w).toNat ∧
    (fieldNN w).toNat = (fieldY w).val * 16 + (fieldN w).toNat ∧
    (fieldNNN w).toNat = (fieldX w).val * 256 + (fieldY w).val * 16 + (fieldN w).toNat ∧
    encode (decodeWord w) = w ∧ (decodeWord w).wellFormed = true

/-- R85 and R86's order: the dispatch on nibbles selects for every word the first row of the opcode map that matches, and
the only overlaps of rows are `00E0` and `00EE` with `0NNN` and every row with the last. It rests on the spec's decision
D12 (which bits the patterns fix). -/
def Obligations.DispatchIsFirstMatchInOpcodeMap : Prop :=
  (∀ w : Word, decodeWord w = decodeByTable w) ∧
  opcodeRows.length = 36 ∧
  (∀ (j k : Nat) (w : Word) (hjk : j < k) (hk : k < opcodeRows.length),
    opcodeRows[j].selects w = true → opcodeRows[k].selects w = true →
    k = 35 ∨ (k = 2 ∧ ((j = 0 ∧ w = 0x00E0) ∨ (j = 1 ∧ w = 0x00EE))))

/-- R87's list: a word is decoded to UNK, which keeps it, exactly when it is `5XYN` or `9XYN` with N != 0, `8XYN` with N
in 8, 9, A, B, C, D, F, or `EXNN` or `FXNN` with an NN of no row. -/
def Obligations.UnrecognisedWordsAreExactlyTheListed : Prop :=
  ∀ w : Word, decodeWord w = .unk w ↔
    (((fieldT w = 0x5 ∨ fieldT w = 0x9) ∧ fieldN w ≠ 0) ∨
     (fieldT w = 0x8 ∧ (fieldN w = 0x8 ∨ fieldN w = 0x9 ∨ fieldN w = 0xA ∨ fieldN w = 0xB ∨ fieldN w = 0xC ∨
       fieldN w = 0xD ∨ fieldN w = 0xF)) ∨
     (fieldT w = 0xE ∧ fieldNN w ≠ 0x9E ∧ fieldNN w ≠ 0xA1) ∨
     (fieldT w = 0xF ∧ fieldNN w ≠ 0x07 ∧ fieldNN w ≠ 0x0A ∧ fieldNN w ≠ 0x15 ∧ fieldNN w ≠ 0x18 ∧ fieldNN w ≠ 0x1E ∧
       fieldNN w ≠ 0x29 ∧ fieldNN w ≠ 0x33 ∧ fieldNN w ≠ 0x55 ∧ fieldNN w ≠ 0x65))

/-- Words written out from the encodings of R86, the source's own examples among them. -/
def Obligations.WrittenOutWordsDecodeAsTheOpcodeMapSays : Prop :=
  decodeTableWord 16 0x00E0 = some .cls ∧ decodeTableWord 16 0x00EE = some .ret ∧
  decodeTableWord 16 0x01E0 = some (.sys 0x1E0) ∧ decodeTableWord 16 0x2300 = some (.call 0x300) ∧
  decodeTableWord 16 0x6042 = some (.ldImm 0 0x42) ∧ decodeTableWord 16 0x8014 = some (.addReg 0 1) ∧
  decodeTableWord 16 0x8AB6 = some (.shr 0xA 0xB) ∧ decodeTableWord 16 0x5121 = some (.unk 0x5121) ∧
  decodeTableWord 16 0xC30F = some (.rnd 3 0x0F) ∧ decodeTableWord 16 0xD125 = some (.drw 1 2 5) ∧
  decodeTableWord 16 0xE19E = some (.skp 1) ∧ decodeTableWord 16 0xFA65 = some (.loadRegs 0xA)

/-! ### The step -/

/-- R22, R21: a step performs the next event of the schedule and leaves the events after it; that event is a Cycle when
none is scheduled (the schedule is the model's form, log 1). A Cycle does nothing in WAIT and in HALT. In RUN, when PC is
at most 0x0FFE and the two bytes at PC (the high byte first) decode to an instruction, it is `exec` of that instruction,
with nothing added: the instruction's rule writes PC itself. -/
def Obligations.StepRunsTheDecodedInstruction : Prop :=
  ∀ (s : State) (rest : List Event),
    (∀ e : Event, s.schedule = e :: rest → step s = perform e { s with schedule := rest }) ∧
    (s.schedule = [] → step s = perform .cycle s) ∧
    (s.mode ≠ .run → perform .cycle s = .next s) ∧
    (∀ (i : Instr) (tail : List Byte), s.mode = .run → s.pc.toNat ≤ 0x0FFE →
      decodeBytes (s.mem.read s.pc.toNat :: s.mem.read (s.pc.toNat + 1) :: tail) = .ok (i, tail) →
      perform .cycle s = exec i s)

/-- R63: the instruction fetch is big-endian, whatever the parity of PC, and the byte at PC holds {T, X}. -/
def Obligations.FetchIsBigEndian : Prop :=
  ∀ (m : Memory) (pc : Word),
    (fetchWord m pc).toNat = (m.read pc.toNat).toNat * 256 + (m.read (pc.toNat + 1)).toNat ∧
    (m.read pc.toNat).toNat = (fieldT (fetchWord m pc)).toNat * 16 + (fieldX (fetchWord m pc)).val ∧
    m.read (pc.toNat + 1) = fieldNN (fetchWord m pc)

/-- R183: in RUN a Cycle raises FETCH_OOB exactly when PC + 1 exceeds 0xFFF; the machine halts, PC keeps its value and
nothing but MODE and FAULT is written. -/
def Obligations.FetchPastTheEndOfMemoryHalts : Prop :=
  ∀ s : State, s.mode = .run →
    (0x0FFF ≤ s.pc.toNat → ∃ t : State, perform .cycle s = .next t ∧ t.mode = .halt ∧ t.fault.kind = .fetchOob ∧
      t = { s with mode := t.mode, fault := t.fault }) ∧
    (s.pc.toNat ≤ 0x0FFE → ∀ t : State, perform .cycle s = .next t → s.fault.kind ≠ .fetchOob →
      t.fault.kind ≠ .fetchOob)

/-! ### System and control flow -/

/-- `SYS` and every unrecognised word only advance PC by 2; no fault record is made. Which words these are (every `0NNN`
but two is `SYS`, `5XYN` and `9XYN` with N != 0 are UNK) rests on the spec's decision D12 (log 12). -/
def Obligations.SysAndUnrecognisedWordsOnlyAdvancePc : Prop :=
  (∀ w : Word, w &&& 0xF000 = 0x0000 → w ≠ 0x00E0 → w ≠ 0x00EE → decodeWord w = .sys (fieldNNN w)) ∧
  (∀ w : Word, unrecognised w = true → decodeWord w = .unk w) ∧
  ∀ (nnn : BitVec 12) (w : Word) (s : State),
    Completes (.sys nnn) s (fun t => t.pc = s.pc + 2 ∧ ChangesOnlyPc s t) ∧
    Completes (.unk w) s (fun t => t.pc = s.pc + 2 ∧ ChangesOnlyPc s t)

/-- R102: `JP` sets PC to NNN, odd or not, with no stack push. -/
def Obligations.JumpSetsPcToItsAddress : Prop :=
  Encodes 0xF000 0x1000 (fun w => .jp (fieldNNN w)) ∧
  ∀ (nnn : BitVec 12) (s : State),
    Completes (.jp nnn) s (fun t => t.pc.toNat = nnn.toNat ∧ ChangesOnlyPc s t)

/-- `JP V0, nnn`: PC := NNN + V0, not reduced to 12 bits, whatever the X nibble, VF not written. Not masking PC is the
spec's decision D10. -/
def Obligations.IndexedJumpAddsV0Unmasked : Prop :=
  Encodes 0xF000 0xB000 (fun w => .jpV0 (fieldNNN w)) ∧
  ∀ (nnn : BitVec 12) (s : State),
    Completes (.jpV0 nnn) s (fun t => t.pc.toNat = nnn.toNat + (s.getV 0).toNat ∧ ChangesOnlyPc s t)

/-- `CALL` below the depth limit: the address of the call plus 2 is pushed, the older entries stay, PC := NNN. That the
entry is the return address is the spec's decision D11 (conflict C2). -/
def Obligations.CallPushesTheReturnAddress : Prop :=
  Encodes 0xF000 0x2000 (fun w => .call (fieldNNN w)) ∧
  ∀ (nnn : BitVec 12) (s : State) (h : s.sp.val < 16),
    Completes (.call nnn) s (fun t =>
      t.stack[s.sp.val] = s.pc + 2 ∧ t.sp.val = s.sp.val + 1 ∧ t.pc.toNat = nnn.toNat ∧
      (∀ k : Fin 16, k.val ≠ s.sp.val → t.stack[k] = s.stack[k]) ∧
      t = { s with stack := t.stack, sp := t.sp, pc := t.pc } ∧ ∀ a, t.mem.read a = s.mem.read a)

/-- R181: with 16 entries live a `CALL` raises STACK_OVERFLOW: nothing is pushed and PC stays; and 16 nested calls from
an empty stack succeed while a seventeenth, whatever the addresses, raises it. -/
def Obligations.SeventeenthNestedCallOverflows : Prop :=
  (∀ (nnn : BitVec 12) (s : State), s.sp.val = 16 →
    Completes (.call nnn) s (fun t => t.mode = .halt ∧ t.fault.kind = .stackOverflow ∧
      t = { s with mode := t.mode, fault := t.fault })) ∧
  (∀ (calls : List (BitVec 12)) (nnn : BitVec 12) (s : State), s.sp.val = 0 → s.mode = .run → calls.length = 16 →
    ∃ t u : State, execAll (calls.map .call) s = .next t ∧ t.mode = .run ∧ t.sp.val = 16 ∧
      exec (.call nnn) t = .next u ∧ u.mode = .halt ∧ u.fault.kind = .stackOverflow ∧
      u.sp = t.sp ∧ u.stack = t.stack ∧ u.pc = t.pc)

/-- `RETURN` pops the newest live entry into PC as it is; with an empty stack it raises STACK_UNDERFLOW and everything but
MODE and FAULT keeps its value (R182). That nothing is added to the raw entry rests on the spec's decision D11 (log 15). -/
def Obligations.ReturnPopsTheNewestEntry : Prop :=
  decodeWord 0x00EE = .ret ∧
  (∀ (s : State) (h : 0 < s.sp.val), Completes .ret s (fun t =>
      t.sp.val = s.sp.val - 1 ∧ t.pc = s.stack[s.sp.val - 1] ∧ t = { s with sp := t.sp, pc := t.pc } ∧
      ∀ a, t.mem.read a = s.mem.read a)) ∧
  (∀ s : State, s.sp.val = 0 → Completes .ret s (fun t =>
      t.mode = .halt ∧ t.fault.kind = .stackUnderflow ∧ t = { s with mode := t.mode, fault := t.fault }))

/-- Call and return are symmetric: whatever ran between them, as long as it left the stack as the call did, `RETURN`
resumes past the call at the depth before it (the source's property, here with the spec's decision D11). -/
def Obligations.ReturnResumesPastItsCall : Prop :=
  ∀ (nnn : BitVec 12) (s t u : State), s.sp.val < 16 → exec (.call nnn) s = .next t →
    u.stack = t.stack → u.sp = t.sp →
    ∃ r : State, exec .ret u = .next r ∧ r.pc = s.pc + 2 ∧ r.sp = s.sp ∧
      ∀ k : Fin 16, k.val < s.sp.val → r.stack[k] = s.stack[k]

/-- Taking a fault: FAULT holds the kind (codes 1, 2, 3), the unchanged PC and, for the two stack faults, the faulting
opcode; MODE := HALT; nothing else is written. The record's form and HALT are the spec's decisions D18, D19. -/
def Obligations.FaultEntryRecordsAndHalts : Prop :=
  (∀ (nnn : BitVec 12) (s : State), s.sp.val = 16 → exec (.call nnn) s = .next { s with
      mode := .halt
      fault := { kind := .stackOverflow, pc := s.pc, opcode := BitVec.ofNat 16 (0x2000 + nnn.toNat), opcodeValid := true } }) ∧
  (∀ s : State, s.sp.val = 0 → exec .ret s = .next { s with
      mode := .halt
      fault := { kind := .stackUnderflow, pc := s.pc, opcode := 0x00EE, opcodeValid := true } }) ∧
  (∀ s : State, s.mode = .run → 0x0FFF ≤ s.pc.toNat → perform .cycle s = .next { s with
      mode := .halt
      fault := { kind := .fetchOob, pc := s.pc, opcode := s.fault.opcode, opcodeValid := false } }) ∧
  FaultKind.stackOverflow.code = 1 ∧ FaultKind.stackUnderflow.code = 2 ∧ FaultKind.fetchOob.code = 3

/-! ### Skips -/

/-- R115, R116: the skips on an immediate go to PC + 4 when the condition holds, to PC + 2 when not, and write nothing
else. -/
def Obligations.SkipsOnImmediateFollowTheirCondition : Prop :=
  Encodes 0xF000 0x3000 (fun w => .seImm (fieldX w) (fieldNN w)) ∧
  Encodes 0xF000 0x4000 (fun w => .sneImm (fieldX w) (fieldNN w)) ∧
  ∀ (x : Reg) (nn : Byte) (s : State),
    Completes (.seImm x nn) s (fun t => (s.getV x = nn → t.pc = s.pc + 4) ∧ (s.getV x ≠ nn → t.pc = s.pc + 2) ∧
      ChangesOnlyPc s t) ∧
    Completes (.sneImm x nn) s (fun t => (s.getV x ≠ nn → t.pc = s.pc + 4) ∧ (s.getV x = nn → t.pc = s.pc + 2) ∧
      ChangesOnlyPc s t)

/-- The skips on two registers. That only N = 0 is a skip in families 5 and 9 is the spec's decision D12. -/
def Obligations.SkipsOnRegistersFollowTheirCondition : Prop :=
  Encodes 0xF00F 0x5000 (fun w => .seReg (fieldX w) (fieldY w)) ∧
  Encodes 0xF00F 0x9000 (fun w => .sneReg (fieldX w) (fieldY w)) ∧
  ∀ (x y : Reg) (s : State),
    Completes (.seReg x y) s (fun t => (s.getV x = s.getV y → t.pc = s.pc + 4) ∧
      (s.getV x ≠ s.getV y → t.pc = s.pc + 2) ∧ ChangesOnlyPc s t) ∧
    Completes (.sneReg x y) s (fun t => (s.getV x ≠ s.getV y → t.pc = s.pc + 4) ∧
      (s.getV x = s.getV y → t.pc = s.pc + 2) ∧ ChangesOnlyPc s t)

/-- The skips on a key test the key of VX's low nibble (the spec's decision D7); in every state exactly one of the two
with the same X skips. -/
def Obligations.SkipsOnKeysFollowTheKey : Prop :=
  Encodes 0xF0FF 0xE09E (fun w => .skp (fieldX w)) ∧ Encodes 0xF0FF 0xE0A1 (fun w => .sknp (fieldX w)) ∧
  ∀ (x : Reg) (k : Key) (s : State), k.val = (s.getV x).toNat % 16 →
    Completes (.skp x) s (fun t => (s.key[k] = true → t.pc = s.pc + 4) ∧ (s.key[k] = false → t.pc = s.pc + 2) ∧
      ChangesOnlyPc s t) ∧
    Completes (.sknp x) s (fun t => (s.key[k] = false → t.pc = s.pc + 4) ∧ (s.key[k] = true → t.pc = s.pc + 2) ∧
      ChangesOnlyPc s t)

/-! ### Register load and arithmetic-logic -/

/-- R120 to R125: the loads, the add without a flag and the logical operations; VF is written only as an ordinary
destination. -/
def Obligations.LoadsAndLogicWriteOnlyTheDestination : Prop :=
  Encodes 0xF000 0x6000 (fun w => .ldImm (fieldX w) (fieldNN w)) ∧
  Encodes 0xF000 0x7000 (fun w => .addImm (fieldX w) (fieldNN w)) ∧
  Encodes 0xF00F 0x8000 (fun w => .ldReg (fieldX w) (fieldY w)) ∧
  Encodes 0xF00F 0x8001 (fun w => .orReg (fieldX w) (fieldY w)) ∧
  Encodes 0xF00F 0x8002 (fun w => .andReg (fieldX w) (fieldY w)) ∧
  Encodes 0xF00F 0x8003 (fun w => .xorReg (fieldX w) (fieldY w)) ∧
  ∀ (x y : Reg) (nn : Byte) (s : State),
    let done (b : Byte) (t : State) : Prop := SetsOnly s t x b ∧ t.pc = s.pc + 2 ∧ ChangesOnlyVAndPc s t
    Completes (.ldImm x nn) s (done nn) ∧
    Completes (.addImm x nn) s (done (BitVec.ofNat 8 (((s.getV x).toNat + nn.toNat) % 256))) ∧
    Completes (.ldReg x y) s (done (s.getV y)) ∧
    Completes (.orReg x y) s (done (s.getV x ||| s.getV y)) ∧
    Completes (.andReg x y) s (done (s.getV x &&& s.getV y)) ∧
    Completes (.xorReg x y) s (done (s.getV x ^^^ s.getV y))

/-- The additions and subtractions with a flag: the result modulo 256 and VF := carry or NOT-borrow, computed from the
old values. With X = 0xF VF ends as the flag: the spec's decision D13. -/
def Obligations.AdditionsAndSubtractionsSetTheirFlag : Prop :=
  Encodes 0xF00F 0x8004 (fun w => .addReg (fieldX w) (fieldY w)) ∧
  Encodes 0xF00F 0x8005 (fun w => .subReg (fieldX w) (fieldY w)) ∧
  Encodes 0xF00F 0x8007 (fun w => .subnReg (fieldX w) (fieldY w)) ∧
  ∀ (x y : Reg) (s : State),
    let vx := (s.getV x).toNat
    let vy := (s.getV y).toNat
    let done (result flag : Nat) (t : State) : Prop :=
      SetsWithFlag s t x result flag ∧ t.pc = s.pc + 2 ∧ ChangesOnlyVAndPc s t
    Completes (.addReg x y) s (done ((vx + vy) % 256) (if vx + vy > 255 then 1 else 0)) ∧
    Completes (.subReg x y) s (done ((256 + vx - vy) % 256) (if vy > vx then 0 else 1)) ∧
    Completes (.subnReg x y) s (done ((256 + vy - vx) % 256) (if vx > vy then 0 else 1))

/-- The shifts by one: VX in place, Y ignored, VF := the bit shifted out. With X = 0xF VF ends as the flag: the spec's
decision D13. -/
def Obligations.ShiftsSetTheBitShiftedOut : Prop :=
  Encodes 0xF00F 0x8006 (fun w => .shr (fieldX w) (fieldY w)) ∧
  Encodes 0xF00F 0x800E (fun w => .shl (fieldX w) (fieldY w)) ∧
  ∀ (x y : Reg) (s : State),
    let vx := (s.getV x).toNat
    let done (result flag : Nat) (t : State) : Prop :=
      SetsWithFlag s t x result flag ∧ t.pc = s.pc + 2 ∧ ChangesOnlyVAndPc s t
    Completes (.shr x y) s (done (vx / 2) (vx % 2)) ∧
    Completes (.shl x y) s (done (2 * vx % 256) (vx / 128))

/-! ### Random -/

/-- `RND`: VX := a draw AND NN, whatever the draw; the draw is the next byte the run supplies, if it supplies one, and is
used up. That the byte is free is the spec's decision D16; the supply of bytes is the model's form (log 2). -/
def Obligations.RandomIsADrawUnderTheMask : Prop :=
  Encodes 0xF000 0xC000 (fun w => .rnd (fieldX w) (fieldNN w)) ∧
  ∀ (x : Reg) (nn : Byte) (s : State), ∃ r : Byte, (∀ d : Byte, s.draws.head? = some d → r = d) ∧
    Completes (.rnd x nn) s (fun t =>
      SetsOnly s t x (r &&& nn) ∧ (t.getV x).toNat ≤ nn.toNat ∧ t.pc = s.pc + 2 ∧
      t.draws = s.draws.tail ∧ t.drawCount = s.drawCount + 1 ∧
      t = { s with v := t.v, pc := t.pc, draws := t.draws, drawCount := t.drawCount } ∧
      ∀ a, t.mem.read a = s.mem.read a)

/-! ### Index register and memory -/

/-- R140: `LD I, nnn`: I := NNN, bits 15:12 become 0. -/
def Obligations.LoadIndexIsTheLiteral : Prop :=
  Encodes 0xF000 0xA000 (fun w => .ldI (fieldNNN w)) ∧
  ∀ (nnn : BitVec 12) (s : State),
    Completes (.ldI nnn) s (fun t => t.i.toNat = nnn.toNat ∧ t.pc = s.pc + 2 ∧ t = { s with i := t.i, pc := t.pc } ∧
      ∀ a, t.mem.read a = s.mem.read a)

/-- `ADD I, Vx`: I := (I + VX) mod 65536 and VF := 1 exactly when the sum exceeds 0xFFF, the spec's decision D9; with
X = 0xF the old VF is added. -/
def Obligations.AddToIndexSetsTheOverflowFlag : Prop :=
  Encodes 0xF0FF 0xF01E (fun w => .addIVx (fieldX w)) ∧
  ∀ (x : Reg) (s : State),
    let sum := s.i.toNat + (s.getV x).toNat
    Completes (.addIVx x) s (fun t => t.i.toNat = sum % 65536 ∧ SetsOnly s t 15 (if sum > 0x0FFF then 1 else 0) ∧
      t.pc = s.pc + 2 ∧ t = { s with v := t.v, i := t.i, pc := t.pc } ∧ ∀ a, t.mem.read a = s.mem.read a)

/-- `LD F, Vx`: I := 0x050 + 5 * (VX mod 16), the spec's decisions D4, D5, D6. -/
def Obligations.FontAddressOfADigit : Prop :=
  Encodes 0xF0FF 0xF029 (fun w => .ldFVx (fieldX w)) ∧
  ∀ (x : Reg) (s : State),
    Completes (.ldFVx x) s (fun t => t.i.toNat = 0x050 + 5 * ((s.getV x).toNat % 16) ∧ t.pc = s.pc + 2 ∧
      t = { s with i := t.i, pc := t.pc } ∧ ∀ a, t.mem.read a = s.mem.read a)

/-- `LD B, Vx`: the hundreds, tens and ones of VX in the bytes at I, I + 1, I + 2 modulo 4096 (the spec's decision D8);
every other byte, I and the registers are unchanged. -/
def Obligations.DecimalDigitsAreStored : Prop :=
  Encodes 0xF0FF 0xF033 (fun w => .ldBVx (fieldX w)) ∧
  ∀ (x : Reg) (s : State),
    let vx := (s.getV x).toNat
    Completes (.ldBVx x) s (fun t =>
      (t.mem.read (ea s.i 0)).toNat = vx / 100 ∧
      (t.mem.read (ea s.i 1)).toNat = vx / 10 % 10 ∧
      (t.mem.read (ea s.i 2)).toNat = vx % 10 ∧
      (∀ a, a ≠ ea s.i 0 → a ≠ ea s.i 1 → a ≠ ea s.i 2 → t.mem.read a = s.mem.read a) ∧
      t.pc = s.pc + 2 ∧ t = { s with mem := t.mem, pc := t.pc })

/-- `LD [I], Vx`: V0 to VX in the bytes from I on, modulo 4096 (the spec's decision D8); every other byte, I and the
registers are unchanged. -/
def Obligations.RegistersAreStoredFromV0ToVx : Prop :=
  Encodes 0xF0FF 0xF055 (fun w => .storeRegs (fieldX w)) ∧
  ∀ (x : Reg) (s : State),
    Completes (.storeRegs x) s (fun t =>
      (∀ r : Reg, r ≤ x → t.mem.read (ea s.i r.val) = s.getV r) ∧
      (∀ a, (∀ r : Reg, r ≤ x → a ≠ ea s.i r.val) → t.mem.read a = s.mem.read a) ∧
      t.pc = s.pc + 2 ∧ t = { s with mem := t.mem, pc := t.pc })

/-- `LD Vx, [I]`: V0 to VX from the bytes from I on, modulo 4096 (the spec's decision D8); the registers above VX, I and
every byte of memory are unchanged. -/
def Obligations.RegistersAreLoadedFromV0ToVx : Prop :=
  Encodes 0xF0FF 0xF065 (fun w => .loadRegs (fieldX w)) ∧
  ∀ (x : Reg) (s : State),
    Completes (.loadRegs x) s (fun t =>
      (∀ r : Reg, r ≤ x → t.getV r = s.mem.read ((s.i.toNat + r.val) % 4096)) ∧
      (∀ r : Reg, x < r → t.getV r = s.getV r) ∧
      t.pc = s.pc + 2 ∧ ChangesOnlyVAndPc s t)

/-- A word stored by `FX55` is what the very next fetch at its address reads, this instruction's own bytes included
(derived in the spec from R70). -/
def Obligations.StoredWordIsFetchedNext : Prop :=
  ∀ (x q r : Reg) (s t : State) (a : Word), exec (.storeRegs x) s = .next t → q.val = r.val + 1 → q ≤ x →
    a.toNat = ea s.i r.val → a.toNat ≤ 0x0FFE → fetchWord t.mem a = wordOfBytes (s.getV r) (s.getV q)

/-- The canonical form is canonical: two memories in it that read the same everywhere are the same list. -/
def Obligations.CanonicalMemoriesWithEqualReadsAreEqual : Prop :=
  ∀ m n : Memory, m.wf = true → n.wf = true → (∀ a, m.read a = n.read a) → m = n

/-! ### Framebuffer -/

/-- R150's effect: `CLS` sets all 2048 pixels to 0 and writes nothing else but PC. (That no other word clears rests on the
spec's decision D12; `DispatchIsFirstMatchInOpcodeMap` and `SysAndUnrecognisedWordsOnlyAdvancePc` say it.) -/
def Obligations.ClearScreenClearsEveryPixel : Prop :=
  decodeWord 0x00E0 = .cls ∧
  ∀ s : State, Completes .cls s (fun t => (∀ (row : Fin 32) (col : Fin 64), t.fb[row][col] = false) ∧
    t.pc = s.pc + 2 ∧ t = { s with fb := t.fb, pc := t.pc } ∧ ∀ a, t.mem.read a = s.mem.read a)

/-- `DRW` in closed form, against the pixel-by-pixel loops the meaning follows: each pixel of the screen is XORed with the
sprite's bit there, and VF := 1 exactly when a pixel that was 1 met a sprite bit 1. Clipping (D14), the bit order (D15)
and the address modulo 4096 (D8) are the spec's decisions. -/
def Obligations.DrawXorsTheSpriteAndReportsCollision : Prop :=
  Encodes 0xF000 0xD000 (fun w => .drw (fieldX w) (fieldY w) (fieldN w)) ∧
  ∀ (x y : Reg) (n : BitVec 4) (s : State),
    Completes (.drw x y n) s (fun t =>
      (∀ (row : Fin 32) (col : Fin 64), t.fb[row][col] = (s.fb[row][col] ^^ spriteBit s x y n row col)) ∧
      SetsOnly s t 15
        (if ∃ (row : Fin 32) (col : Fin 64), s.fb[row][col] = true ∧ spriteBit s x y n row col = true then 1 else 0) ∧
      t.pc = s.pc + 2 ∧ t = { s with v := t.v, fb := t.fb, pc := t.pc } ∧ ∀ a, t.mem.read a = s.mem.read a)

/-- Drawing the same sprite at the same coordinates twice restores the framebuffer; if the first draw left a pixel it
touched at 1 the second sets VF = 1; and a sprite with no 1 bit on the screen gives VF = 0 both times (R152, derived in
the spec from the rule of `DXYN` and its decisions). -/
def Obligations.DrawingTwiceRestoresTheScreen : Prop :=
  ∀ (x y : Reg) (n : BitVec 4) (s t u r : State),
    exec (.drw x y n) s = .next t → u.fb = t.fb → u.i = s.i → (∀ a, u.mem.read a = s.mem.read a) →
    u.getV x = s.getV x → u.getV y = s.getV y → exec (.drw x y n) u = .next r →
    r.fb = s.fb ∧
    ((∃ (row : Fin 32) (col : Fin 64), spriteBit s x y n row col = true ∧ t.fb[row][col] = true) → r.getV 15 = 1) ∧
    ((∀ (row : Fin 32) (col : Fin 64), spriteBit s x y n row col = false) → t.getV 15 = 0 ∧ r.getV 15 = 0)

/-- R154: the framebuffer changes in no event but Reset and a Cycle in RUN that fetches `CLS` or `DRW`; every other
instruction, a Tick and a SetKey leave every pixel. -/
def Obligations.OnlyClearAndDrawWriteTheFramebuffer : Prop :=
  (∀ (i : Instr) (s t : State), exec i s = .next t → i ≠ .cls → (∀ x y n, i ≠ .drw x y n) → t.fb = s.fb) ∧
  (∀ (e : Event) (s t : State), perform e s = .next t → (∀ rom, e ≠ .reset rom) → t.fb ≠ s.fb →
    e = .cycle ∧ s.mode = .run ∧
      (decodeWord (fetchWord s.mem s.pc) = .cls ∨ ∃ x y n, decodeWord (fetchWord s.mem s.pc) = .drw x y n))

/-! ### Keypad -/

/-- `LD Vx, K` enters the wait and does only this: MODE := WAIT, WAITX := X; PC, V and KEY are not touched. MODE and WAITX
are the spec's decision D17. -/
def Obligations.KeyWaitIsEntered : Prop :=
  Encodes 0xF0FF 0xF00A (fun w => .ldVxK (fieldX w)) ∧
  ∀ (x : Reg) (s : State),
    Completes (.ldVxK x) s (fun t => t.mode = .wait ∧ t.waitx = x ∧ t = { s with mode := t.mode, waitx := t.waitx } ∧
      ∀ a, t.mem.read a = s.mem.read a)

/-- The wait completes in the first SetKey event that takes a key from released to pressed: VX := that key's index,
PC := PC + 2, MODE := RUN; every other SetKey event writes KEY alone and the wait goes on (the spec's decision D17). -/
def Obligations.KeyDownCompletesTheWait : Prop :=
  ∀ (k : Key) (p : Bool) (s : State), s.mode = .wait →
    (setKey k p s).key[k] = p ∧ (∀ j : Key, j ≠ k → (setKey k p s).key[j] = s.key[j]) ∧
    (p = true → s.key[k] = false →
      SetsOnly s (setKey k p s) s.waitx (BitVec.ofNat 8 k.val) ∧ (setKey k p s).pc = s.pc + 2 ∧
      (setKey k p s).mode = .run ∧
      setKey k p s = { s with key := (setKey k p s).key, v := (setKey k p s).v, pc := (setKey k p s).pc, mode := .run }) ∧
    (p = false ∨ s.key[k] = true → setKey k p s = { s with key := (setKey k p s).key })

/-- The whole of `FX0A`: with no scheduled event before the key-down, the Cycle that fetches it waits, any number of
Cycle and Tick events pass, and the key-down of a key not held gives VX its index and PC + 2 (the spec's decision D17).
-/
def Obligations.KeyWaitOutlastsCyclesAndTicks : Prop :=
  ∀ (x : Reg) (k : Key) (n : Nat) (s t : State), s.mode = .run → exec (.ldVxK x) s = .next t → s.key[k] = false →
    perform .cycle (ticks n t) = .next (ticks n t) ∧
    SetsOnly s (setKey k true (ticks n t)) x (BitVec.ofNat 8 k.val) ∧
    (setKey k true (ticks n t)).pc = s.pc + 2 ∧ (setKey k true (ticks n t)).mode = .run ∧
    (setKey k true (ticks n t)).dt.toNat = s.dt.toNat - n

/-- In RUN a SetKey event writes that one key and nothing else, and one that repeats the key's state changes nothing at
all; in HALT it has no effect; and no instruction writes KEY. The clause on HALT is the spec's decision D19 (log 19). -/
def Obligations.OnlySetKeyWritesTheKeypad : Prop :=
  (∀ (k : Key) (p : Bool) (s : State), s.mode = .run →
    (setKey k p s).key[k] = p ∧ (∀ j : Key, j ≠ k → (setKey k p s).key[j] = s.key[j]) ∧
    setKey k p s = { s with key := (setKey k p s).key } ∧ (s.key[k] = p → setKey k p s = s)) ∧
  (∀ (k : Key) (p : Bool) (s : State), s.mode = .halt → setKey k p s = s) ∧
  (∀ (i : Instr) (s t : State), exec i s = .next t → t.key = s.key)

/-- R165: in WAIT a Cycle event changes nothing, a Tick counts the timers down and keeps the wait, and Reset leaves
WAIT. -/
def Obligations.WaitHoldsTheCoreButNotTheTimers : Prop :=
  ∀ s : State, s.mode = .wait →
    perform .cycle s = .next s ∧
    (tick s).dt.toNat = s.dt.toNat - 1 ∧ (tick s).st.toNat = s.st.toNat - 1 ∧
    tick s = { s with dt := (tick s).dt, st := (tick s).st } ∧
    ∀ rom : List Byte, rom.length ≤ 3584 → ∃ t : State, perform (.reset rom) s = .next t ∧ t.mode = .run

/-! ### Timers -/

/-- R170, R171, R172: `FX07` reads DT without changing it, `FX15` sets DT to VX and "a timer set to n reaches 0 after
exactly n Tick events" and stays there, `FX18` sets ST to VX. -/
def Obligations.TimerInstructionsMoveOneByte : Prop :=
  Encodes 0xF0FF 0xF007 (fun w => .ldVxDt (fieldX w)) ∧ Encodes 0xF0FF 0xF015 (fun w => .ldDtVx (fieldX w)) ∧
  Encodes 0xF0FF 0xF018 (fun w => .ldStVx (fieldX w)) ∧
  ∀ (x : Reg) (s : State),
    Completes (.ldVxDt x) s (fun t => SetsOnly s t x s.dt ∧ t.pc = s.pc + 2 ∧ ChangesOnlyVAndPc s t) ∧
    Completes (.ldDtVx x) s (fun t => t.dt = s.getV x ∧ t.pc = s.pc + 2 ∧ t = { s with dt := t.dt, pc := t.pc } ∧
      (∀ a, t.mem.read a = s.mem.read a) ∧
      (s.mode ≠ .halt → ∀ n : Nat, (ticks n t).dt.toNat = (s.getV x).toNat - n)) ∧
    Completes (.ldStVx x) s (fun t => t.st = s.getV x ∧ t.pc = s.pc + 2 ∧ t = { s with st := t.st, pc := t.pc } ∧
      ∀ a, t.mem.read a = s.mem.read a)

/-- A Tick in RUN or WAIT takes 1 from each timer above 0, leaves one at 0, and changes nothing else; in HALT it has no
effect. The clause on HALT is the spec's decision D19 (log 19). -/
def Obligations.TickCountsTheTimersDown : Prop :=
  ∀ s : State,
    (s.mode ≠ .halt →
      (0 < s.dt.toNat → (tick s).dt.toNat + 1 = s.dt.toNat) ∧ (s.dt = 0 → (tick s).dt = 0) ∧
      (0 < s.st.toNat → (tick s).st.toNat + 1 = s.st.toNat) ∧ (s.st = 0 → (tick s).st = 0) ∧
      tick s = { s with dt := (tick s).dt, st := (tick s).st }) ∧
    (s.mode = .halt → tick s = s)

/-- R174: the tone is on exactly while ST is not 0: after `FX18` with value n and then j Ticks, it is on exactly when
j < n. -/
def Obligations.ToneSoundsUntilTheTimerRunsOut : Prop :=
  (∀ s : State, s.hostView.tone = true ↔ s.st ≠ 0) ∧
  ∀ (x : Reg) (j : Nat) (s t : State), s.mode ≠ .halt → exec (.ldStVx x) s = .next t →
    ((ticks j t).hostView.tone = true ↔ j < (s.getV x).toNat)

/-- R37: no instruction but `FX15` writes DT and none but `FX18` writes ST, and ST cannot be read by any instruction: two
states that differ in ST alone take any instruction to states that differ in ST alone. -/
def Obligations.SoundTimerIsReadByNoInstruction : Prop :=
  (∀ (i : Instr) (s t : State), exec i s = .next t →
    ((∀ x, i ≠ .ldDtVx x) → t.dt = s.dt) ∧ ((∀ x, i ≠ .ldStVx x) → t.st = s.st)) ∧
  (∀ (i : Instr) (s : State) (b : Byte), ∃ t u : State,
    exec i s = .next t ∧ exec i { s with st := b } = .next u ∧ u = { t with st := u.st } ∧
    ((∃ x, i = .ldStVx x) ∨ u.st = b))

/-- A Tick and an instruction that uses no timer commute: their order is visible only through `FX07`, `FX15`, `FX18`
and, since HALT freezes the timers, through a fault (derived in the spec, R212 and R213). -/
def Obligations.TicksCommuteWithTimerlessInstructions : Prop :=
  ∀ (i : Instr) (s t : State), usesTimers i = false → s.mode = .run → exec i s = .next t → t.mode ≠ .halt →
    exec i (tick s) = .next (tick t)

/-! ### Faults and MODE -/

/-- "No opcode may panic": every instruction, in every state, has a next state, and it leaves MODE as it was except that
`FX0A` enters WAIT, `CALL` with 16 live entries and `RETURN` with none enter HALT (derived in the spec, R186, from the
list of the three faults). -/
def Obligations.EveryInstructionCompletesAndOnlyThreeChangeMode : Prop :=
  ∀ (i : Instr) (s : State), ∃ t : State, exec i s = .next t ∧
    (t.mode = s.mode ∨ (t.mode = .wait ∧ ∃ x, i = .ldVxK x) ∨
      (t.mode = .halt ∧ s.sp.val = 16 ∧ ∃ nnn, i = .call nnn) ∨ (t.mode = .halt ∧ s.sp.val = 0 ∧ i = .ret)) ∧
    (t.fault = s.fault ∨ (s.sp.val = 16 ∧ ∃ nnn, i = .call nnn) ∨ (s.sp.val = 0 ∧ i = .ret))

/-- HALT absorbs: Cycle, Tick and SetKey leave the whole state unchanged, so FAULT keeps what it reported (the spec's
decision D19). -/
def Obligations.HaltAbsorbsEveryEventButReset : Prop :=
  ∀ s : State, s.mode = .halt →
    perform .cycle s = .next s ∧ perform .tick s = .next s ∧
    (∀ (k : Key) (p : Bool), perform (.setKey k p) s = .next s) ∧
    ∀ n : Nat, s.schedule = [] → Host.Core.run Sys2Proof.core n s = .next s

/-- A run need not end: a wait that no key-down event ends, and a `JP` to its own address, leave the state as it is for
any number of Cycles, safe and without a stop (derived in the spec, R215). -/
def Obligations.EndlessRunsAreNeitherFaultNorStuck : Prop :=
  ∀ (s : State) (n : Nat), s.schedule = [] →
    (s.mode = .wait ∨
      (s.mode = .run ∧ s.pc.toNat ≤ 0x0FFE ∧
        ∃ nnn : BitVec 12, decodeWord (fetchWord s.mem s.pc) = .jp nnn ∧ nnn.toNat = s.pc.toNat)) →
    Host.Core.run Sys2Proof.core n s = .next s ∧ SafeFor n s

/-! ### Whole-machine rules over all instructions -/

/-- R29, R28: how PC changes, instruction by instruction: PC + 2 for every instruction not named; PC + 2 or PC + 4 for the
six skips; NNN, NNN + V0, the popped entry; unchanged for `FX0A` and for an instruction that raises a fault. -/
def Obligations.PcChangesOnlyAsItsInstructionSays : Prop :=
  ∀ (i : Instr) (s t : State), exec i s = .next t →
    match i with
    | .jp nnn => t.pc.toNat = nnn.toNat
    | .call nnn => (s.sp.val < 16 ∧ t.pc.toNat = nnn.toNat) ∨ (s.sp.val = 16 ∧ t.pc = s.pc ∧ t.mode = .halt)
    | .jpV0 nnn => t.pc.toNat = nnn.toNat + (s.getV 0).toNat
    | .ret => (∃ k : Fin 16, k.val + 1 = s.sp.val ∧ t.pc = s.stack[k]) ∨
        (s.sp.val = 0 ∧ t.pc = s.pc ∧ t.mode = .halt)
    | .ldVxK _ => t.pc = s.pc
    | j => if isSkip j = true then t.pc = s.pc + 4 ∨ t.pc = s.pc + 2 else t.pc = s.pc + 2

/-- The writers of the V registers and of I, instruction by instruction: a V register that is not a destination of the
instruction keeps its value, and I is written only by `ANNN` (below 0x1000), `FX29` (below 0x100) and `FX1E`. The writers
are derived in the spec from the instruction rules (R27); that `FX1E` keeps 16 bits of I is its decision D9. -/
def Obligations.VAndIChangeOnlyAsDestinations : Prop :=
  ∀ (i : Instr) (s t : State), exec i s = .next t →
    (∀ r : Reg, mayWriteV i r = false → t.getV r = s.getV r) ∧
    (t.i = s.i ∨ ((∃ nnn, i = .ldI nnn) ∧ t.i.toNat < 0x1000) ∨ ((∃ x, i = .ldFVx x) ∧ t.i.toNat < 0x100) ∨
      ∃ x, i = .addIVx x)

/-- R32: the seven flag-writing instructions leave VF 0x00 or 0x01, and no other instruction writes VF except as an
ordinary destination: not `7XNN`, `8XY1`, `8XY2`, `8XY3` with X < 0xF, nor `00E0`, `FX55`, nor `FX65` with X < 0xF. -/
def Obligations.OnlySevenInstructionsWriteTheFlag : Prop :=
  ∀ (i : Instr) (s t : State), exec i s = .next t →
    (writesFlag i = true → t.getV 15 = 0 ∨ t.getV 15 = 1) ∧
    (∀ x y : Reg, ∀ nn : Byte, x ≠ 15 →
      i = .addImm x nn ∨ i = .orReg x y ∨ i = .andReg x y ∨ i = .xorReg x y ∨ i = .cls ∨ i = .storeRegs x ∨
        i = .loadRegs x →
      t.getV 15 = s.getV 15) ∧
    (writesFlag i = false → t.getV 15 = s.getV 15 ∨ mayWriteV i 15 = true)

/-- R60: only `FX33` and `FX55` change memory; the other instructions, a Tick and a SetKey leave every byte as it
reads, and nothing makes memory larger than its 4096 bytes. -/
def Obligations.OnlyTwoInstructionsWriteMemory : Prop :=
  (∀ (i : Instr) (s t : State), exec i s = .next t → (∀ x, i ≠ .ldBVx x) → (∀ x, i ≠ .storeRegs x) →
    ∀ a, t.mem.read a = s.mem.read a) ∧
  (∀ (s : State) (a : Nat), (tick s).mem.read a = s.mem.read a) ∧
  (∀ (k : Key) (p : Bool) (s : State) (a : Nat), (setKey k p s).mem.read a = s.mem.read a) ∧
  (∀ (i : Instr) (s t : State) (a : Nat), exec i s = .next t → 4096 ≤ a → t.mem.read a = s.mem.read a)

/-- R35: no instruction reads or writes a stack slot or the depth except `2NNN` and `00EE`: on a state with any other
stack an instruction does the same and keeps that stack; and stale slots are unobservable: from two states that differ in
them alone, the host sees the same, and a step, whatever event it performs, leads to states that again differ in stale
slots alone (or to the same refusal). -/
def Obligations.StaleStackSlotsAreUnobservable : Prop :=
  (∀ (i : Instr) (s : State) (stack : Vector Word 16) (sp : Fin 17), (∀ nnn, i ≠ .call nnn) → i ≠ .ret →
    ∃ t : State, exec i s = .next t ∧ t.stack = s.stack ∧ t.sp = s.sp ∧
      exec i { s with stack := stack, sp := sp } = .next { t with stack := stack, sp := sp }) ∧
  (∀ s t : State, s.SameButStaleSlots t →
    s.hostView = t.hostView ∧ OutcomesRelated State.SameButStaleSlots (step s) (step t))

/-- WAITX is meaningless outside WAIT: from two states that differ in it alone there, the host sees the same and a step
leads to states that again differ at most so (R39, derived in the spec). -/
def Obligations.WaitRegisterIsMeaninglessOutsideWait : Prop :=
  ∀ s t : State, s.SameButIdleWaitx t →
    s.hostView = t.hostView ∧ OutcomesRelated State.SameButIdleWaitx (step s) (step t)

/-! ### Reset -/

/-- The state after Reset(rom): PC = 0x200, the stack empty, the ROM's bytes from 0x200 on as they are, and the font
somewhere below 0x200; a ROM is accepted exactly when it has at most 3584 bytes. The 80 bytes of the font are PRESUMED
(log 6, the spec's decision D5), and when a ROM is accepted is the spec's decision D22 (log 20). -/
def Obligations.ResetLoadsTheRomAtProgBase : Prop :=
  ∀ (rom : List Byte) (s : State),
    ((∃ t : State, perform (.reset rom) s = .next t) ↔ rom.length ≤ 3584) ∧
    ∀ t : State, perform (.reset rom) s = .next t →
      t.pc = 0x0200 ∧ t.sp.val = 0 ∧
      (∀ (j : Nat) (h : j < rom.length), t.mem.read (0x200 + j) = rom[j]) ∧
      ∃ base : Nat, base + fontData.length ≤ 0x200 ∧
        ∀ (j : Nat) (h : j < fontData.length), t.mem.read (base + j) = fontData[j]

/-- Every other piece of state after Reset(rom) has the value the spec decides (D3, D4, D5, D17, D18): all zero, no key
pressed, MODE RUN, no fault; the font's 80 bytes from 0x050 on, and every byte that is neither font nor ROM 0x00.
FAULT.pc, FAULT.opcode and FAULT.opcode_valid are zero by the model's choice (log 5). -/
def Obligations.ResetZeroesTheRest : Prop :=
  ∀ (rom : List Byte) (s t : State), perform (.reset rom) s = .next t →
    (∀ r : Reg, t.getV r = 0) ∧ t.i = 0 ∧ t.dt = 0 ∧ t.st = 0 ∧ (∀ k : Fin 16, t.stack[k] = 0) ∧
    (∀ (row : Fin 32) (col : Fin 64), t.fb[row][col] = false) ∧ (∀ k : Key, t.key[k] = false) ∧
    t.mode = .run ∧ t.waitx = 0 ∧ t.fault = { kind := .none, pc := 0, opcode := 0, opcodeValid := false } ∧
    (∀ j : Nat, j < 80 → t.mem.read (0x050 + j) = fontData.getD j 0) ∧
    (∀ a : Nat, a < 0x050 ∨ (0x0A0 ≤ a ∧ a < 0x200) ∨ 0x200 + rom.length ≤ a → t.mem.read a = 0) ∧
    t.mem.wf = true

/-- Reset may come in any mode, and gives the same machine whatever the state before it was (R200, the spec's decisions
D3 and D22); it is the only event that leaves HALT (R202). The inputs still to come are kept (log 1, log 2). -/
def Obligations.ResetForgetsTheStateBefore : Prop :=
  (∀ (rom : List Byte) (s u t : State), rom.length ≤ 3584 → perform (.reset rom) s = .next t →
    perform (.reset rom) u = .next { t with schedule := u.schedule, draws := u.draws, drawCount := u.drawCount }) ∧
  (∀ (e : Event) (s t : State), s.mode = .halt → perform e s = .next t → t.mode ≠ .halt → ∃ rom, e = .reset rom)

/-! ### Invariants -/

/-- The invariant of reachable states, and the agreement of the fault report with the state, hold after reset with every
ROM the loader accepts, whatever events are to come. -/
def Obligations.InvariantsHoldAfterReset : Prop :=
  (State.reset.Inv ∧ State.reset.FaultReported) ∧
  ∀ (rom : List Byte) (s t : State), perform (.reset rom) s = .next t → t.Inv ∧ t.FaultReported

/-- Every step, whatever event it performs, keeps the invariant of R48: memory canonical, PC at most 0x10FE (so that PC
never wraps, R31), every live stack entry in 0x0002 to 0x1000, HALT exactly when FAULT.kind is set, and in WAIT an
`FX0A` with X = WAITX at PC (R39). -/
def Obligations.EveryStepKeepsTheInvariant : Prop :=
  ∀ s t : State, s.Inv → step s = .next t → t.Inv

/-- Every step keeps the agreement of the fault report with the state: in HALT, FAULT names the fetch, the `CALL` or the
`RETURN` that stands at the unchanged PC, with the stack full or empty as its kind says (the spec's decisions D18,
D19). -/
def Obligations.FaultReportStaysTrueToTheState : Prop :=
  ∀ s t : State, s.Inv → s.FaultReported → step s = .next t → t.FaultReported
end

