-- ==== Sys2Proof/Laws/Decode.lean ====
section
/-! SUPPORT. Fields, formats and masks as arithmetic on the word's value, so that a proof about encodings is a proof
about quotients and remainders. -/

namespace Sys2Proof

/-! ### Concatenation -/

theorem toNat_append {m n : Nat} (a : BitVec m) (b : BitVec n) : (a ++ b).toNat = a.toNat * 2 ^ n + b.toNat := by
  rw [BitVec.toNat_append, Nat.shiftLeft_eq, Nat.mul_comm, ← Nat.two_pow_add_eq_or_of_lt b.isLt]

/-- The high byte comes first (R63). -/
theorem wordOfBytes_toNat (hi lo : Byte) : (wordOfBytes hi lo).toNat = hi.toNat * 256 + lo.toNat := toNat_append hi lo

/-! ### The fields of R81 -/

theorem fieldT_toNat (w : Word) : (fieldT w).toNat = w.toNat / 4096 := by
  have := w.isLt
  simp [fieldT, BitVec.extractLsb'_toNat, Nat.shiftRight_eq_div_pow]; omega

theorem fieldX_val (w : Word) : (fieldX w).val = w.toNat / 256 % 16 := by
  simp [fieldX, Nat.shiftRight_eq_div_pow]

theorem fieldY_val (w : Word) : (fieldY w).val = w.toNat / 16 % 16 := by
  simp [fieldY, Nat.shiftRight_eq_div_pow]

theorem fieldN_toNat (w : Word) : (fieldN w).toNat = w.toNat % 16 := by
  simp [fieldN, BitVec.extractLsb'_toNat]

theorem fieldNN_toNat (w : Word) : (fieldNN w).toNat = w.toNat % 256 := by
  simp [fieldNN, BitVec.extractLsb'_toNat]

theorem fieldNNN_toNat (w : Word) : (fieldNNN w).toNat = w.toNat % 4096 := by
  simp [fieldNNN, BitVec.extractLsb'_toNat]

/-- The two bytes of a word put together again are the word. -/
theorem wordOfBytes_high_low (w : Word) : wordOfBytes (highByte w) (lowByte w) = w := by
  apply BitVec.eq_of_toNat_eq
  have := w.isLt
  rw [wordOfBytes_toNat]
  simp [highByte, lowByte, BitVec.extractLsb'_toNat, Nat.shiftRight_eq_div_pow]
  omega

/-! ### The formats of R82 -/

theorem formatA_toNat (t : BitVec 4) (nnn : BitVec 12) : (formatA t nnn).toNat = t.toNat * 4096 + nnn.toNat :=
  toNat_append t nnn

theorem formatI_toNat (t : BitVec 4) (x : Reg) (nn : Byte) :
    (formatI t x nn).toNat = t.toNat * 4096 + x.val * 256 + nn.toNat := by
  calc (formatI t x nn).toNat = (t ++ (BitVec.ofFin x : BitVec 4)).toNat * 2 ^ 8 + nn.toNat := toNat_append _ _
    _ = (t.toNat * 2 ^ 4 + x.val) * 2 ^ 8 + nn.toNat := by rw [toNat_append]; rfl
    _ = _ := by omega

theorem formatD_toNat (t : BitVec 4) (x y : Reg) (n : BitVec 4) :
    (formatD t x y n).toNat = t.toNat * 4096 + x.val * 256 + y.val * 16 + n.toNat := by
  calc (formatD t x y n).toNat
      = (t ++ (BitVec.ofFin x : BitVec 4) ++ (BitVec.ofFin y : BitVec 4)).toNat * 2 ^ 4 + n.toNat := toNat_append _ _
    _ = ((t ++ (BitVec.ofFin x : BitVec 4)).toNat * 2 ^ 4 + y.val) * 2 ^ 4 + n.toNat := by rw [toNat_append]; rfl
    _ = ((t.toNat * 2 ^ 4 + x.val) * 2 ^ 4 + y.val) * 2 ^ 4 + n.toNat := by rw [toNat_append]; rfl
    _ = _ := by omega

/-- The fields of a word of format A. -/
theorem fields_formatA (t : BitVec 4) (nnn : BitVec 12) :
    fieldT (formatA t nnn) = t ∧ fieldNNN (formatA t nnn) = nnn := by
  have := t.isLt
  have := nnn.isLt
  constructor <;> apply BitVec.eq_of_toNat_eq <;> simp only [fieldT_toNat, fieldNNN_toNat, formatA_toNat] <;> omega

/-- The fields of a word of format I or U. -/
theorem fields_formatI (t : BitVec 4) (x : Reg) (nn : Byte) :
    fieldT (formatI t x nn) = t ∧ fieldX (formatI t x nn) = x ∧ fieldNN (formatI t x nn) = nn := by
  have := t.isLt
  have := nn.isLt
  have := x.isLt
  refine ⟨BitVec.eq_of_toNat_eq ?_, Fin.ext ?_, BitVec.eq_of_toNat_eq ?_⟩
    <;> simp only [fieldT_toNat, fieldX_val, fieldNN_toNat, formatI_toNat] <;> omega

/-- The fields of a word of format D or R. -/
theorem fields_formatD (t : BitVec 4) (x y : Reg) (n : BitVec 4) :
    fieldT (formatD t x y n) = t ∧ fieldX (formatD t x y n) = x ∧ fieldY (formatD t x y n) = y ∧
      fieldN (formatD t x y n) = n := by
  have := t.isLt
  have := n.isLt
  have := x.isLt
  have := y.isLt
  refine ⟨BitVec.eq_of_toNat_eq ?_, Fin.ext ?_, Fin.ext ?_, BitVec.eq_of_toNat_eq ?_⟩
    <;> simp only [fieldT_toNat, fieldX_val, fieldY_val, fieldN_toNat, formatD_toNat] <;> omega

/-! ### The masks of R86: which fields each fixes -/

theorem and_F000_toNat (w : Word) : (w &&& 0xF000#16).toNat = w.toNat / 4096 * 4096 := by
  have e : w &&& 0xF000#16 = (w >>> 12) <<< 12 := by
    apply BitVec.eq_of_getLsbD_eq
    intro i hi
    simp only [BitVec.getLsbD_and, BitVec.getLsbD_shiftLeft, BitVec.getLsbD_ushiftRight]
    interval_cases i <;> simp
  have := w.isLt
  rw [e]
  simp [Nat.shiftLeft_eq, Nat.shiftRight_eq_div_pow]
  omega

theorem and_F00F_toNat (w : Word) : (w &&& 0xF00F#16).toNat = w.toNat / 4096 * 4096 + w.toNat % 16 := by
  have e : w &&& 0xF00F#16 = (w &&& 0xF000#16) ||| (w &&& 0x000F#16) := by rw [← BitVec.and_or_distrib_left]; rfl
  have e2 : (w &&& 0x000F#16).toNat = w.toNat % 16 := by
    rw [BitVec.toNat_and]; exact Nat.and_two_pow_sub_one_eq_mod _ 4
  rw [e, BitVec.toNat_or, and_F000_toNat, e2, show w.toNat / 4096 * 4096 = 2 ^ 12 * (w.toNat / 4096) by omega,
    ← Nat.two_pow_add_eq_or_of_lt (by omega)]

theorem and_F0FF_toNat (w : Word) : (w &&& 0xF0FF#16).toNat = w.toNat / 4096 * 4096 + w.toNat % 256 := by
  have e : w &&& 0xF0FF#16 = (w &&& 0xF000#16) ||| (w &&& 0x00FF#16) := by rw [← BitVec.and_or_distrib_left]; rfl
  have e2 : (w &&& 0x00FF#16).toNat = w.toNat % 256 := by
    rw [BitVec.toNat_and]; exact Nat.and_two_pow_sub_one_eq_mod _ 8
  rw [e, BitVec.toNat_or, and_F000_toNat, e2, show w.toNat / 4096 * 4096 = 2 ^ 12 * (w.toNat / 4096) by omega,
    ← Nat.two_pow_add_eq_or_of_lt (by omega)]

/-- A match under 0xF000 fixes T. -/
theorem fieldT_of_and_F000 {w v : Word} (h : w &&& 0xF000 = v) : (fieldT w).toNat = v.toNat / 4096 := by
  have h : (w &&& 0xF000#16).toNat = v.toNat := congrArg BitVec.toNat h
  rw [and_F000_toNat] at h
  rw [fieldT_toNat]; omega

/-- A match under 0xF00F fixes T and N. -/
theorem fields_of_and_F00F {w v : Word} (h : w &&& 0xF00F = v) :
    (fieldT w).toNat = v.toNat / 4096 ∧ (fieldN w).toNat = v.toNat % 16 := by
  have h : (w &&& 0xF00F#16).toNat = v.toNat := congrArg BitVec.toNat h
  rw [and_F00F_toNat] at h
  rw [fieldT_toNat, fieldN_toNat]; omega

/-- A match under 0xF0FF fixes T and NN. -/
theorem fields_of_and_F0FF {w v : Word} (h : w &&& 0xF0FF = v) :
    (fieldT w).toNat = v.toNat / 4096 ∧ (fieldNN w).toNat = v.toNat % 256 := by
  have h : (w &&& 0xF0FF#16).toNat = v.toNat := congrArg BitVec.toNat h
  rw [and_F0FF_toNat] at h
  rw [fieldT_toNat, fieldNN_toNat]; omega

end Sys2Proof
end

