-- ==== Sys2Proof/Laws/Display.lean ====
section
/-! SUPPORT. What the drawing loops of R151 do, once: each flips the pixels of a set and reports a collision exactly when
one of them was 1. -/

namespace Sys2Proof.Machine

/-- Reading a pixel after a flip. -/
theorem Framebuffer.pixel_flip (fb : Framebuffer) {y x r c : Nat} (hr : r < 32) (hc : c < 64) (hy : y < 32)
    (hx : x < 64) : (fb.flip y x).pixel r c = (fb.pixel r c ^^ decide (r = y ∧ c = x)) := by
  simp only [Framebuffer.flip, Framebuffer.pixel, hr, hc, hy, hx, and_self, dif_pos]
  by_cases h1 : r = y
  · subst h1
    by_cases h2 : c = x
    · subst h2; simp
    · have : ¬x = c := fun e => h2 e.symm
      simp [h2, Vector.getElem_set_ne, this]
  · have : ¬y = r := fun e => h1 e.symm
    simp [h1, this, Vector.getElem_set_ne]

theorem Framebuffer.pixel_fin (fb : Framebuffer) (r : Fin 32) (c : Fin 64) : fb.pixel r.val c.val = fb[r][c] := by
  simp [Framebuffer.pixel]

theorem Framebuffer.ext_pixels {a b : Framebuffer} (h : ∀ (r : Fin 32) (c : Fin 64), a[r][c] = b[r][c]) : a = b := by
  apply Vector.ext
  intro i hi
  apply Vector.ext
  intro j hj
  exact h ⟨i, hi⟩ ⟨j, hj⟩

/-- Drawing took `a`, a framebuffer and the collision so far, to `b` by flipping the pixels of `S`. -/
structure Flips (S : Nat → Nat → Bool) (a b : Framebuffer × Bool) : Prop where
  pixels : ∀ r c, r < 32 → c < 64 → b.1.pixel r c = (a.1.pixel r c ^^ S r c)
  collision : b.2 = true ↔ a.2 = true ∨ ∃ r c, r < 32 ∧ c < 64 ∧ S r c = true ∧ a.1.pixel r c = true

theorem Flips.nothing {S : Nat → Nat → Bool} {a : Framebuffer × Bool} (h : ∀ r c, r < 32 → c < 64 → S r c = false) :
    Flips S a a := by
  refine ⟨fun r c hr hc => by simp [h r c hr hc], ⟨Or.inl, ?_⟩⟩
  rintro (h1 | ⟨r, c, hr, hc, hs, _⟩)
  · exact h1
  · simp [h r c hr hc] at hs

theorem Flips.same {S T : Nat → Nat → Bool} {a b : Framebuffer × Bool} (h : Flips S a b)
    (hst : ∀ r c, r < 32 → c < 64 → T r c = S r c) : Flips T a b := by
  refine ⟨fun r c hr hc => by rw [hst r c hr hc, h.pixels r c hr hc], h.collision.trans ?_⟩
  refine or_congr_right ⟨?_, ?_⟩ <;> rintro ⟨r, c, hr, hc, hs, hp⟩ <;> refine ⟨r, c, hr, hc, ?_, hp⟩
  · rw [hst r c hr hc, hs]
  · rw [← hst r c hr hc, hs]

/-- Two sets of pixels flipped one after the other, with no pixel in common, are their union flipped. -/
theorem Flips.trans {S T U : Nat → Nat → Bool} {a b c : Framebuffer × Bool} (h1 : Flips S a b) (h2 : Flips T b c)
    (hd : ∀ r k, r < 32 → k < 64 → (S r k && T r k) = false)
    (hu : ∀ r k, r < 32 → k < 64 → U r k = (S r k || T r k)) : Flips U a c := by
  refine ⟨fun r k hr hk => ?_, h2.collision.trans ((or_congr_left h1.collision).trans ⟨?_, ?_⟩)⟩
  · have hd := hd r k hr hk
    rw [h2.pixels r k hr hk, h1.pixels r k hr hk, hu r k hr hk]
    revert hd
    cases S r k <;> cases T r k <;> simp
  · rintro ((h | ⟨r, k, hr, hk, hs, hp⟩) | ⟨r, k, hr, hk, hs, hp⟩)
    · exact .inl h
    · exact .inr ⟨r, k, hr, hk, by simp [hu r k hr hk, hs], hp⟩
    · have hS : S r k = false := by simpa [hs] using hd r k hr hk
      exact .inr ⟨r, k, hr, hk, by simp [hu r k hr hk, hs], by simpa [h1.pixels r k hr hk, hS] using hp⟩
  · rintro (h | ⟨r, k, hr, hk, hs, hp⟩)
    · exact .inl (.inl h)
    · cases hS : S r k with
      | true => exact .inl (.inr ⟨r, k, hr, hk, hS, hp⟩)
      | false =>
        have hT : T r k = true := by simpa [hu r k hr hk, hS] using hs
        exact .inr ⟨r, k, hr, hk, hT, by simp [h1.pixels r k hr hk, hS, hp]⟩

theorem drawPixel_flips (y x : Nat) (a : Framebuffer × Bool) :
    Flips (fun r c => decide (r = y ∧ c = x)) a (drawPixel y x a) := by
  unfold drawPixel
  split
  · refine ⟨fun r c hr hc => Framebuffer.pixel_flip _ hr hc (by omega) (by omega), ?_⟩
    simp only [Bool.or_eq_true]
    refine or_congr_right ⟨fun h => ⟨y, x, by omega, by omega, by simp, h⟩, ?_⟩
    rintro ⟨r, c, -, -, hs, hp⟩
    simp only [decide_eq_true_eq] at hs
    obtain ⟨rfl, rfl⟩ := hs
    exact hp
  · refine Flips.nothing fun r c hr hc => ?_
    simp only [decide_eq_false_iff_not]
    omega

theorem drawByte_flips (y x0 : Nat) (b : Byte) (a : Framebuffer × Bool) :
    Flips (fun r c => decide (r = y ∧ x0 ≤ c ∧ c < x0 + 8) && b.getLsbD (7 - (c - x0))) a (drawByte y x0 b a) := by
  have upTo : ∀ m, m ≤ 8 →
      Flips (fun r c => decide (r = y ∧ x0 ≤ c ∧ c < x0 + m) && b.getLsbD (7 - (c - x0))) a
        ((List.range m).foldl (fun acc c => if b.getLsbD (7 - c) then drawPixel y (x0 + c) acc else acc) a) := by
    intro m
    induction m with
    | zero => exact fun _ => .nothing fun r c _ _ => by simp
    | succ m ih =>
      intro hm
      have hnew : ∀ r c, ¬(r = y ∧ c = x0 + m) →
          decide (r = y ∧ x0 ≤ c ∧ c < x0 + (m + 1)) = decide (r = y ∧ x0 ≤ c ∧ c < x0 + m) :=
        fun r c h => decide_eq_decide.2 (by omega)
      rw [List.range_succ, List.foldl_append]
      simp only [List.foldl_cons, List.foldl_nil]
      split
      · next hb =>
        refine (ih (by omega)).trans (drawPixel_flips _ _ _) (fun r c _ _ => by simp; omega) fun r c _ _ => ?_
        by_cases e : r = y ∧ c = x0 + m
        · obtain ⟨rfl, rfl⟩ := e
          simp [hb]
        · simp [hnew r c e, e]
      · next hb =>
        refine (ih (by omega)).same fun r c _ _ => ?_
        by_cases e : r = y ∧ c = x0 + m
        · obtain ⟨rfl, rfl⟩ := e
          simp [hb]
        · simp only [hnew r c e]
  exact upTo 8 (Nat.le_refl 8)

/-- The whole of the two loops of R151: which pixels a sprite flips, and when it collides. -/
theorem drawSprite_flips (m : Memory) (i : Word) (y0 x0 n : Nat) (a : Framebuffer × Bool) :
    Flips (fun r c => decide (y0 ≤ r ∧ r < y0 + n ∧ x0 ≤ c ∧ c < x0 + 8) &&
        (m.read (ea i (r - y0))).getLsbD (7 - (c - x0))) a (drawSprite m i y0 x0 n a) := by
  unfold drawSprite
  induction n with
  | zero => exact .nothing fun r c _ _ => by simp; omega
  | succ n ih =>
    rw [List.range_succ, List.foldl_append]
    simp only [List.foldl_cons, List.foldl_nil]
    refine ih.trans (drawByte_flips _ _ _ _) (fun r c _ _ => by simp; omega) fun r c _ _ => ?_
    by_cases e : r = y0 + n
    · subst e
      simp
    · have : decide (y0 ≤ r ∧ r < y0 + (n + 1) ∧ x0 ≤ c ∧ c < x0 + 8)
          = decide (y0 ≤ r ∧ r < y0 + n ∧ x0 ≤ c ∧ c < x0 + 8) := decide_eq_decide.2 (by omega)
      simp [this, e]

end Sys2Proof.Machine
end

