-- ==== Sys2Proof/Laws/Memory.lean ====
section
/-! SUPPORT. Memory: read after write, and that every memory operation keeps the canonical form. -/

namespace Sys2Proof.Machine

/-! ### Reading -/

theorem Memory.read_insert (a : Nat) (v : Byte) (m : Memory) (hm : ∀ c ∈ m, c.1 ≠ a) (b : Nat) :
    Memory.read (Memory.insert a v m) b = if b = a then v else m.read b := by
  induction m with
  | nil => simp [Memory.insert, Memory.read]
  | cons c rest ih =>
    obtain ⟨p, u⟩ := c
    have hp : p ≠ a := hm (p, u) (by simp)
    have ih := ih fun c hc => hm c (by simp [hc])
    by_cases hlt : a < p
    · simp [Memory.insert, Memory.read, hlt]
    · simp only [Memory.insert, hlt, if_false, Memory.read, ih]
      by_cases hb : b = p
      · simp [hb, hp]
      · simp [hb]

theorem Memory.read_filter_ne (m : Memory) (a b : Nat) (h : b ≠ a) :
    Memory.read (m.filter (fun c => c.1 != a)) b = m.read b := by
  induction m with
  | nil => rfl
  | cons c rest ih =>
    obtain ⟨p, u⟩ := c
    by_cases hp : p = a
    · simp [Memory.read, hp, h, ih]
    · simp [Memory.read, hp, ih]

theorem Memory.read_filter_self (m : Memory) (a : Nat) :
    Memory.read (m.filter (fun c => c.1 != a)) a = Memory.background a := by
  induction m with
  | nil => rfl
  | cons c rest ih =>
    obtain ⟨p, u⟩ := c
    by_cases hp : p = a
    · simp [hp, ih]
    · have hp' : ¬a = p := fun e => hp e.symm
      simp [Memory.read, hp, hp', ih]

/-- Read after write, at any two addresses of any memory (R67, R70). -/
theorem Memory.read_write (m : Memory) (a b : Nat) (v : Byte) :
    (m.write a v).read b = if b = a then v else m.read b := by
  simp only [Memory.write]
  split
  · next hv =>
    by_cases hb : b = a
    · subst hb; simp [Memory.read_filter_self, hv]
    · simp [hb, Memory.read_filter_ne _ _ _ hb]
  · rw [Memory.read_insert _ _ _ (by simp)]
    by_cases hb : b = a
    · simp [hb]
    · simp [hb, Memory.read_filter_ne _ _ _ hb]

@[simp] theorem Memory.read_write_self (m : Memory) (a : Nat) (v : Byte) : (m.write a v).read a = v := by
  simp [Memory.read_write]

theorem Memory.read_write_of_ne (m : Memory) {a b : Nat} (v : Byte) (h : b ≠ a) : (m.write a v).read b = m.read b := by
  simp [Memory.read_write, h]

@[simp] theorem ea_lt (i : Word) (k : Nat) : ea i k < 4096 := Nat.mod_lt _ (by decide)

/-- What a block store leaves everywhere else. -/
theorem Memory.read_storeFrom_of_ne (bs : List Byte) (m : Memory) (i : Word) (k b : Nat)
    (h : ∀ j, j < bs.length → b ≠ ea i (k + j)) : (m.storeFrom i k bs).read b = m.read b := by
  induction bs generalizing m k with
  | nil => rfl
  | cons c rest ih =>
    simp only [Memory.storeFrom]
    rw [ih _ _ fun j hj => by
      have := h (j + 1) (by simpa using hj)
      rwa [show k + (j + 1) = k + 1 + j by omega] at this]
    exact Memory.read_write_of_ne _ _ (by simpa using h 0 (by simp))

/-- Two offsets less than a whole memory apart are different bytes. -/
theorem ea_ne (i : Word) {j k : Nat} (h : j ≠ k) (hj : j < 4096) (hk : k < 4096) : ea i j ≠ ea i k := by
  simp only [ea, Config.memSize]; omega

/-- What a block store leaves at its own bytes. -/
theorem Memory.read_storeFrom (bs : List Byte) (m : Memory) (i : Word) (k j : Nat) (hj : j < bs.length)
    (hk : k + bs.length ≤ 4096) : (m.storeFrom i k bs).read (ea i (k + j)) = bs[j] := by
  induction bs generalizing m k j with
  | nil => simp at hj
  | cons c rest ih =>
    simp only [Memory.storeFrom]
    simp only [List.length_cons] at hj hk
    cases j with
    | zero =>
      rw [Memory.read_storeFrom_of_ne _ _ _ _ _ fun l hl => ea_ne _ (by omega) (by omega) (by omega)]
      simp
    | succ j =>
      rw [show k + (j + 1) = k + 1 + j by omega, ih _ _ _ (by omega) (by omega)]
      simp

theorem Memory.read_image_below (rom : List Byte) (a b : Nat) (h : b < a) :
    (Memory.image a rom).read b = Memory.background b := by
  induction rom generalizing a with
  | nil => rfl
  | cons c rest ih =>
    have ih := ih (a + 1) (by omega)
    have hne : ¬b = a := by omega
    simp only [Memory.image]
    split
    · exact ih
    · simp [Memory.read, hne, ih]

/-- What the loader's image reads as, at its own bytes and everywhere else (R69). -/
theorem Memory.read_image (rom : List Byte) (a b : Nat) :
    (Memory.image a rom).read b
      = if h : a ≤ b ∧ b - a < rom.length then rom[b - a]'h.2 else Memory.background b := by
  induction rom generalizing a with
  | nil => simp [Memory.image, Memory.read]
  | cons c rest ih =>
    have hself : Memory.read (Memory.image a (c :: rest)) a = c := by
      simp only [Memory.image]
      split
      · next hc => rw [Memory.read_image_below _ _ _ (by omega), hc]
      · simp [Memory.read]
    have hoff : ∀ hb : b ≠ a, Memory.read (Memory.image a (c :: rest)) b = Memory.read (Memory.image (a + 1) rest) b := by
      intro hb
      simp only [Memory.image]
      split
      · rfl
      · simp [Memory.read, hb]
    by_cases hb : b = a
    · subst hb; simpa using hself
    · rw [hoff hb, ih]
      by_cases hlt : a < b
      · obtain ⟨d, rfl⟩ : ∃ d, b = a + 1 + d := ⟨b - a - 1, by omega⟩
        have e : a + 1 + d - a = d + 1 := by omega
        simp [e, show a ≤ a + 1 + d by omega]
      · simp [show ¬a + 1 ≤ b by omega, show ¬a ≤ b by omega]

/-! ### The canonical form -/

theorem Memory.wfFrom_mono {m : Memory} {lo lo' : Nat} (h : lo' ≤ lo) (hm : Memory.wfFrom lo m = true) :
    Memory.wfFrom lo' m = true := by
  cases m with
  | nil => rfl
  | cons c rest =>
    simp only [Memory.wfFrom, Bool.and_eq_true, decide_eq_true_eq] at hm ⊢
    exact ⟨⟨⟨by omega, hm.1.1.2⟩, hm.1.2⟩, hm.2⟩

theorem Memory.wfFrom_filter {m : Memory} {lo a : Nat} (hm : Memory.wfFrom lo m = true) :
    Memory.wfFrom lo (m.filter (fun c => c.1 != a)) = true := by
  induction m generalizing lo with
  | nil => rfl
  | cons c rest ih =>
    obtain ⟨p, u⟩ := c
    simp only [Memory.wfFrom, Bool.and_eq_true, decide_eq_true_eq] at hm
    have hrest := ih hm.2
    by_cases hp : p = a
    · simp only [List.filter_cons, hp, bne_self_eq_false, Bool.false_eq_true, if_false]
      exact Memory.wfFrom_mono (by omega) (hp ▸ hrest)
    · have hkeep : (p != a) = true := by simpa using hp
      simp only [List.filter_cons, hkeep, if_true, Memory.wfFrom, Bool.and_eq_true, decide_eq_true_eq]
      exact ⟨hm.1, hrest⟩

theorem Memory.wfFrom_insert {m : Memory} {lo a : Nat} {v : Byte} (hm : Memory.wfFrom lo m = true)
    (hne : ∀ c ∈ m, c.1 ≠ a) (hlo : lo ≤ a) (ha : a < 4096) (hv : v ≠ Memory.background a) :
    Memory.wfFrom lo (Memory.insert a v m) = true := by
  induction m generalizing lo with
  | nil => simp [Memory.insert, Memory.wfFrom, hlo, ha, hv]
  | cons c rest ih =>
    obtain ⟨p, u⟩ := c
    have hp : p ≠ a := hne (p, u) (by simp)
    simp only [Memory.wfFrom, Bool.and_eq_true, decide_eq_true_eq] at hm
    simp only [Memory.insert]
    split
    · simp only [Memory.wfFrom, Bool.and_eq_true, decide_eq_true_eq]
      exact ⟨⟨⟨hlo, ha⟩, by simpa using hv⟩, ⟨⟨by omega, hm.1.1.2⟩, hm.1.2⟩, hm.2⟩
    · simp only [Memory.wfFrom, Bool.and_eq_true, decide_eq_true_eq]
      exact ⟨hm.1, ih hm.2 (fun c hc => hne c (by simp [hc])) (by omega)⟩

/-- A write inside memory keeps the canonical form. -/
theorem Memory.wf_write {m : Memory} {a : Nat} (v : Byte) (hm : m.wf = true) (ha : a < 4096) :
    (m.write a v).wf = true := by
  simp only [Memory.wf, Memory.write] at *
  split
  · exact Memory.wfFrom_filter hm
  · exact Memory.wfFrom_insert (Memory.wfFrom_filter hm) (by simp) (Nat.zero_le _) ha ‹_›

/-- A block store keeps the canonical form. -/
theorem Memory.wf_storeFrom {m : Memory} (i : Word) (k : Nat) (bs : List Byte) (hm : m.wf = true) :
    (m.storeFrom i k bs).wf = true := by
  induction bs generalizing m k with
  | nil => exact hm
  | cons b rest ih => exact ih _ (Memory.wf_write b hm (ea_lt i k))

theorem Memory.wfFrom_image (a : Nat) (rom : List Byte) (h : a + rom.length ≤ 4096) :
    Memory.wfFrom a (Memory.image a rom) = true := by
  induction rom generalizing a with
  | nil => rfl
  | cons b rest ih =>
    simp only [List.length_cons] at h
    have ih := ih (a + 1) (by omega)
    simp only [Memory.image]
    split
    · exact Memory.wfFrom_mono (by omega) ih
    · simp only [Memory.wfFrom, Bool.and_eq_true, decide_eq_true_eq]
      exact ⟨⟨⟨Nat.le_refl a, by simp only [Config.memSize]; omega⟩, by simpa using ‹¬_›⟩, ih⟩

/-- The memory of Reset(rom) is canonical for every ROM the loader accepts. -/
theorem Memory.wf_ofRom (rom : List Byte) (h : rom.length ≤ Config.romMax) : (Memory.ofRom rom).wf = true :=
  Memory.wfFrom_mono (Nat.zero_le _) (Memory.wfFrom_image _ _ (by simp only [Config.progBase, Config.romMax] at *; omega))

/-- The memory right after reset is canonical. -/
theorem State.reset_mem_wf : State.reset.mem.wf = true := rfl

/-- Storing a word where the next step fetches keeps the canonical form. -/
theorem State.placeWord_mem_wf (s : State) (w : Word) (h : s.mem.wf = true) : (s.placeWord w).mem.wf = true := by
  have hpc : ∀ pc : Word, pc = (if fetchable s.pc then s.pc else BitVec.ofNat 16 Config.progBase) →
      pc.toNat + 1 < 4096 := by
    intro pc hpc
    by_cases hf : fetchable s.pc
    · simp only [hf, if_true] at hpc
      simp only [fetchable, Config.lastFetchPc, decide_eq_true_eq] at hf
      subst hpc; omega
    · simp only [hf, Bool.false_eq_true, if_false] at hpc
      subst hpc; decide
  have := hpc _ rfl
  exact Memory.wf_write _ (Memory.wf_write _ h (by omega)) this

end Sys2Proof.Machine
end

