-- ==== Sys2Proof/Laws/State.lean ====
section
/-! SUPPORT. What each operation of Machine/Ops.lean leaves in each field of the state, so that no later proof unfolds a
record update. -/

namespace Sys2Proof.Machine

/-! ### One lemma per field per update -/

@[simp] theorem State.setV_v (s : State) (r : Reg) (b : Byte) : (s.setV r b).v = s.v.set r b := rfl
@[simp] theorem State.setV_i (s : State) (r : Reg) (b : Byte) : (s.setV r b).i = s.i := rfl
@[simp] theorem State.setV_pc (s : State) (r : Reg) (b : Byte) : (s.setV r b).pc = s.pc := rfl
@[simp] theorem State.setV_dt (s : State) (r : Reg) (b : Byte) : (s.setV r b).dt = s.dt := rfl
@[simp] theorem State.setV_st (s : State) (r : Reg) (b : Byte) : (s.setV r b).st = s.st := rfl
@[simp] theorem State.setV_stack (s : State) (r : Reg) (b : Byte) : (s.setV r b).stack = s.stack := rfl
@[simp] theorem State.setV_sp (s : State) (r : Reg) (b : Byte) : (s.setV r b).sp = s.sp := rfl
@[simp] theorem State.setV_mem (s : State) (r : Reg) (b : Byte) : (s.setV r b).mem = s.mem := rfl
@[simp] theorem State.setV_fb (s : State) (r : Reg) (b : Byte) : (s.setV r b).fb = s.fb := rfl
@[simp] theorem State.setV_key (s : State) (r : Reg) (b : Byte) : (s.setV r b).key = s.key := rfl
@[simp] theorem State.setV_mode (s : State) (r : Reg) (b : Byte) : (s.setV r b).mode = s.mode := rfl
@[simp] theorem State.setV_waitx (s : State) (r : Reg) (b : Byte) : (s.setV r b).waitx = s.waitx := rfl
@[simp] theorem State.setV_fault (s : State) (r : Reg) (b : Byte) : (s.setV r b).fault = s.fault := rfl
@[simp] theorem State.setV_schedule (s : State) (r : Reg) (b : Byte) : (s.setV r b).schedule = s.schedule := rfl
@[simp] theorem State.setV_draws (s : State) (r : Reg) (b : Byte) : (s.setV r b).draws = s.draws := rfl
@[simp] theorem State.setV_drawCount (s : State) (r : Reg) (b : Byte) : (s.setV r b).drawCount = s.drawCount := rfl
@[simp] theorem State.setVThenFlag_v (s : State) (x : Reg) (a f : Byte) : (s.setVThenFlag x a f).v = (s.v.set x a).set vf f := rfl
@[simp] theorem State.setVThenFlag_i (s : State) (x : Reg) (a f : Byte) : (s.setVThenFlag x a f).i = s.i := rfl
@[simp] theorem State.setVThenFlag_pc (s : State) (x : Reg) (a f : Byte) : (s.setVThenFlag x a f).pc = s.pc := rfl
@[simp] theorem State.setVThenFlag_dt (s : State) (x : Reg) (a f : Byte) : (s.setVThenFlag x a f).dt = s.dt := rfl
@[simp] theorem State.setVThenFlag_st (s : State) (x : Reg) (a f : Byte) : (s.setVThenFlag x a f).st = s.st := rfl
@[simp] theorem State.setVThenFlag_stack (s : State) (x : Reg) (a f : Byte) : (s.setVThenFlag x a f).stack = s.stack := rfl
@[simp] theorem State.setVThenFlag_sp (s : State) (x : Reg) (a f : Byte) : (s.setVThenFlag x a f).sp = s.sp := rfl
@[simp] theorem State.setVThenFlag_mem (s : State) (x : Reg) (a f : Byte) : (s.setVThenFlag x a f).mem = s.mem := rfl
@[simp] theorem State.setVThenFlag_fb (s : State) (x : Reg) (a f : Byte) : (s.setVThenFlag x a f).fb = s.fb := rfl
@[simp] theorem State.setVThenFlag_key (s : State) (x : Reg) (a f : Byte) : (s.setVThenFlag x a f).key = s.key := rfl
@[simp] theorem State.setVThenFlag_mode (s : State) (x : Reg) (a f : Byte) : (s.setVThenFlag x a f).mode = s.mode := rfl
@[simp] theorem State.setVThenFlag_waitx (s : State) (x : Reg) (a f : Byte) : (s.setVThenFlag x a f).waitx = s.waitx := rfl
@[simp] theorem State.setVThenFlag_fault (s : State) (x : Reg) (a f : Byte) : (s.setVThenFlag x a f).fault = s.fault := rfl
@[simp] theorem State.setVThenFlag_schedule (s : State) (x : Reg) (a f : Byte) : (s.setVThenFlag x a f).schedule = s.schedule := rfl
@[simp] theorem State.setVThenFlag_draws (s : State) (x : Reg) (a f : Byte) : (s.setVThenFlag x a f).draws = s.draws := rfl
@[simp] theorem State.setVThenFlag_drawCount (s : State) (x : Reg) (a f : Byte) : (s.setVThenFlag x a f).drawCount = s.drawCount := rfl
@[simp] theorem State.advance_v (s : State)  : (s.advance).v = s.v := rfl
@[simp] theorem State.advance_i (s : State)  : (s.advance).i = s.i := rfl
@[simp] theorem State.advance_pc (s : State)  : (s.advance).pc = s.pc + 2 := rfl
@[simp] theorem State.advance_dt (s : State)  : (s.advance).dt = s.dt := rfl
@[simp] theorem State.advance_st (s : State)  : (s.advance).st = s.st := rfl
@[simp] theorem State.advance_stack (s : State)  : (s.advance).stack = s.stack := rfl
@[simp] theorem State.advance_sp (s : State)  : (s.advance).sp = s.sp := rfl
@[simp] theorem State.advance_mem (s : State)  : (s.advance).mem = s.mem := rfl
@[simp] theorem State.advance_fb (s : State)  : (s.advance).fb = s.fb := rfl
@[simp] theorem State.advance_key (s : State)  : (s.advance).key = s.key := rfl
@[simp] theorem State.advance_mode (s : State)  : (s.advance).mode = s.mode := rfl
@[simp] theorem State.advance_waitx (s : State)  : (s.advance).waitx = s.waitx := rfl
@[simp] theorem State.advance_fault (s : State)  : (s.advance).fault = s.fault := rfl
@[simp] theorem State.advance_schedule (s : State)  : (s.advance).schedule = s.schedule := rfl
@[simp] theorem State.advance_draws (s : State)  : (s.advance).draws = s.draws := rfl
@[simp] theorem State.advance_drawCount (s : State)  : (s.advance).drawCount = s.drawCount := rfl
@[simp] theorem State.skipIf_v (s : State) (c : Bool) : (s.skipIf c).v = s.v := rfl
@[simp] theorem State.skipIf_i (s : State) (c : Bool) : (s.skipIf c).i = s.i := rfl
@[simp] theorem State.skipIf_pc (s : State) (c : Bool) :
    (s.skipIf c).pc = if c then s.pc + 4 else s.pc + 2 := rfl
@[simp] theorem State.skipIf_dt (s : State) (c : Bool) : (s.skipIf c).dt = s.dt := rfl
@[simp] theorem State.skipIf_st (s : State) (c : Bool) : (s.skipIf c).st = s.st := rfl
@[simp] theorem State.skipIf_stack (s : State) (c : Bool) : (s.skipIf c).stack = s.stack := rfl
@[simp] theorem State.skipIf_sp (s : State) (c : Bool) : (s.skipIf c).sp = s.sp := rfl
@[simp] theorem State.skipIf_mem (s : State) (c : Bool) : (s.skipIf c).mem = s.mem := rfl
@[simp] theorem State.skipIf_fb (s : State) (c : Bool) : (s.skipIf c).fb = s.fb := rfl
@[simp] theorem State.skipIf_key (s : State) (c : Bool) : (s.skipIf c).key = s.key := rfl
@[simp] theorem State.skipIf_mode (s : State) (c : Bool) : (s.skipIf c).mode = s.mode := rfl
@[simp] theorem State.skipIf_waitx (s : State) (c : Bool) : (s.skipIf c).waitx = s.waitx := rfl
@[simp] theorem State.skipIf_fault (s : State) (c : Bool) : (s.skipIf c).fault = s.fault := rfl
@[simp] theorem State.skipIf_schedule (s : State) (c : Bool) : (s.skipIf c).schedule = s.schedule := rfl
@[simp] theorem State.skipIf_draws (s : State) (c : Bool) : (s.skipIf c).draws = s.draws := rfl
@[simp] theorem State.skipIf_drawCount (s : State) (c : Bool) : (s.skipIf c).drawCount = s.drawCount := rfl
@[simp] theorem State.jump_v (s : State) (t : Word) : (s.jump t).v = s.v := rfl
@[simp] theorem State.jump_i (s : State) (t : Word) : (s.jump t).i = s.i := rfl
@[simp] theorem State.jump_pc (s : State) (t : Word) : (s.jump t).pc = t := rfl
@[simp] theorem State.jump_dt (s : State) (t : Word) : (s.jump t).dt = s.dt := rfl
@[simp] theorem State.jump_st (s : State) (t : Word) : (s.jump t).st = s.st := rfl
@[simp] theorem State.jump_stack (s : State) (t : Word) : (s.jump t).stack = s.stack := rfl
@[simp] theorem State.jump_sp (s : State) (t : Word) : (s.jump t).sp = s.sp := rfl
@[simp] theorem State.jump_mem (s : State) (t : Word) : (s.jump t).mem = s.mem := rfl
@[simp] theorem State.jump_fb (s : State) (t : Word) : (s.jump t).fb = s.fb := rfl
@[simp] theorem State.jump_key (s : State) (t : Word) : (s.jump t).key = s.key := rfl
@[simp] theorem State.jump_mode (s : State) (t : Word) : (s.jump t).mode = s.mode := rfl
@[simp] theorem State.jump_waitx (s : State) (t : Word) : (s.jump t).waitx = s.waitx := rfl
@[simp] theorem State.jump_fault (s : State) (t : Word) : (s.jump t).fault = s.fault := rfl
@[simp] theorem State.jump_schedule (s : State) (t : Word) : (s.jump t).schedule = s.schedule := rfl
@[simp] theorem State.jump_draws (s : State) (t : Word) : (s.jump t).draws = s.draws := rfl
@[simp] theorem State.jump_drawCount (s : State) (t : Word) : (s.jump t).drawCount = s.drawCount := rfl
@[simp] theorem State.raiseFault_v (s : State) (k : FaultKind) (op : Option Word) : (s.raiseFault k op).v = s.v := rfl
@[simp] theorem State.raiseFault_i (s : State) (k : FaultKind) (op : Option Word) : (s.raiseFault k op).i = s.i := rfl
@[simp] theorem State.raiseFault_pc (s : State) (k : FaultKind) (op : Option Word) : (s.raiseFault k op).pc = s.pc := rfl
@[simp] theorem State.raiseFault_dt (s : State) (k : FaultKind) (op : Option Word) : (s.raiseFault k op).dt = s.dt := rfl
@[simp] theorem State.raiseFault_st (s : State) (k : FaultKind) (op : Option Word) : (s.raiseFault k op).st = s.st := rfl
@[simp] theorem State.raiseFault_stack (s : State) (k : FaultKind) (op : Option Word) : (s.raiseFault k op).stack = s.stack := rfl
@[simp] theorem State.raiseFault_sp (s : State) (k : FaultKind) (op : Option Word) : (s.raiseFault k op).sp = s.sp := rfl
@[simp] theorem State.raiseFault_mem (s : State) (k : FaultKind) (op : Option Word) : (s.raiseFault k op).mem = s.mem := rfl
@[simp] theorem State.raiseFault_fb (s : State) (k : FaultKind) (op : Option Word) : (s.raiseFault k op).fb = s.fb := rfl
@[simp] theorem State.raiseFault_key (s : State) (k : FaultKind) (op : Option Word) : (s.raiseFault k op).key = s.key := rfl
@[simp] theorem State.raiseFault_mode (s : State) (k : FaultKind) (op : Option Word) : (s.raiseFault k op).mode = Mode.halt := rfl
@[simp] theorem State.raiseFault_waitx (s : State) (k : FaultKind) (op : Option Word) : (s.raiseFault k op).waitx = s.waitx := rfl
@[simp] theorem State.raiseFault_fault (s : State) (k : FaultKind) (op : Option Word) :
    (s.raiseFault k op).fault = { kind := k, pc := s.pc, opcode := op.getD s.fault.opcode, opcodeValid := op.isSome } := rfl
@[simp] theorem State.raiseFault_schedule (s : State) (k : FaultKind) (op : Option Word) : (s.raiseFault k op).schedule = s.schedule := rfl
@[simp] theorem State.raiseFault_draws (s : State) (k : FaultKind) (op : Option Word) : (s.raiseFault k op).draws = s.draws := rfl
@[simp] theorem State.raiseFault_drawCount (s : State) (k : FaultKind) (op : Option Word) : (s.raiseFault k op).drawCount = s.drawCount := rfl
@[simp] theorem State.enterWait_v (s : State) (x : Reg) : (s.enterWait x).v = s.v := rfl
@[simp] theorem State.enterWait_i (s : State) (x : Reg) : (s.enterWait x).i = s.i := rfl
@[simp] theorem State.enterWait_pc (s : State) (x : Reg) : (s.enterWait x).pc = s.pc := rfl
@[simp] theorem State.enterWait_dt (s : State) (x : Reg) : (s.enterWait x).dt = s.dt := rfl
@[simp] theorem State.enterWait_st (s : State) (x : Reg) : (s.enterWait x).st = s.st := rfl
@[simp] theorem State.enterWait_stack (s : State) (x : Reg) : (s.enterWait x).stack = s.stack := rfl
@[simp] theorem State.enterWait_sp (s : State) (x : Reg) : (s.enterWait x).sp = s.sp := rfl
@[simp] theorem State.enterWait_mem (s : State) (x : Reg) : (s.enterWait x).mem = s.mem := rfl
@[simp] theorem State.enterWait_fb (s : State) (x : Reg) : (s.enterWait x).fb = s.fb := rfl
@[simp] theorem State.enterWait_key (s : State) (x : Reg) : (s.enterWait x).key = s.key := rfl
@[simp] theorem State.enterWait_mode (s : State) (x : Reg) : (s.enterWait x).mode = Mode.wait := rfl
@[simp] theorem State.enterWait_waitx (s : State) (x : Reg) : (s.enterWait x).waitx = x := rfl
@[simp] theorem State.enterWait_fault (s : State) (x : Reg) : (s.enterWait x).fault = s.fault := rfl
@[simp] theorem State.enterWait_schedule (s : State) (x : Reg) : (s.enterWait x).schedule = s.schedule := rfl
@[simp] theorem State.enterWait_draws (s : State) (x : Reg) : (s.enterWait x).draws = s.draws := rfl
@[simp] theorem State.enterWait_drawCount (s : State) (x : Reg) : (s.enterWait x).drawCount = s.drawCount := rfl
@[simp] theorem State.completeWait_v (s : State) (k : Key) :
    (s.completeWait k).v = s.v.set s.waitx (BitVec.ofNat 8 k.val) := rfl
@[simp] theorem State.completeWait_i (s : State) (k : Key) : (s.completeWait k).i = s.i := rfl
@[simp] theorem State.completeWait_pc (s : State) (k : Key) : (s.completeWait k).pc = s.pc + 2 := rfl
@[simp] theorem State.completeWait_dt (s : State) (k : Key) : (s.completeWait k).dt = s.dt := rfl
@[simp] theorem State.completeWait_st (s : State) (k : Key) : (s.completeWait k).st = s.st := rfl
@[simp] theorem State.completeWait_stack (s : State) (k : Key) : (s.completeWait k).stack = s.stack := rfl
@[simp] theorem State.completeWait_sp (s : State) (k : Key) : (s.completeWait k).sp = s.sp := rfl
@[simp] theorem State.completeWait_mem (s : State) (k : Key) : (s.completeWait k).mem = s.mem := rfl
@[simp] theorem State.completeWait_fb (s : State) (k : Key) : (s.completeWait k).fb = s.fb := rfl
@[simp] theorem State.completeWait_key (s : State) (k : Key) : (s.completeWait k).key = s.key := rfl
@[simp] theorem State.completeWait_mode (s : State) (k : Key) : (s.completeWait k).mode = Mode.run := rfl
@[simp] theorem State.completeWait_waitx (s : State) (k : Key) : (s.completeWait k).waitx = s.waitx := rfl
@[simp] theorem State.completeWait_fault (s : State) (k : Key) : (s.completeWait k).fault = s.fault := rfl
@[simp] theorem State.completeWait_schedule (s : State) (k : Key) : (s.completeWait k).schedule = s.schedule := rfl
@[simp] theorem State.completeWait_draws (s : State) (k : Key) : (s.completeWait k).draws = s.draws := rfl
@[simp] theorem State.completeWait_drawCount (s : State) (k : Key) : (s.completeWait k).drawCount = s.drawCount := rfl
@[simp] theorem State.takeDraw_v (s : State)  : (s.takeDraw).v = s.v := rfl
@[simp] theorem State.takeDraw_i (s : State)  : (s.takeDraw).i = s.i := rfl
@[simp] theorem State.takeDraw_pc (s : State)  : (s.takeDraw).pc = s.pc := rfl
@[simp] theorem State.takeDraw_dt (s : State)  : (s.takeDraw).dt = s.dt := rfl
@[simp] theorem State.takeDraw_st (s : State)  : (s.takeDraw).st = s.st := rfl
@[simp] theorem State.takeDraw_stack (s : State)  : (s.takeDraw).stack = s.stack := rfl
@[simp] theorem State.takeDraw_sp (s : State)  : (s.takeDraw).sp = s.sp := rfl
@[simp] theorem State.takeDraw_mem (s : State)  : (s.takeDraw).mem = s.mem := rfl
@[simp] theorem State.takeDraw_fb (s : State)  : (s.takeDraw).fb = s.fb := rfl
@[simp] theorem State.takeDraw_key (s : State)  : (s.takeDraw).key = s.key := rfl
@[simp] theorem State.takeDraw_mode (s : State)  : (s.takeDraw).mode = s.mode := rfl
@[simp] theorem State.takeDraw_waitx (s : State)  : (s.takeDraw).waitx = s.waitx := rfl
@[simp] theorem State.takeDraw_fault (s : State)  : (s.takeDraw).fault = s.fault := rfl
@[simp] theorem State.takeDraw_schedule (s : State)  : (s.takeDraw).schedule = s.schedule := rfl
@[simp] theorem State.takeDraw_draws (s : State)  : (s.takeDraw).draws = s.draws.tail := rfl
@[simp] theorem State.takeDraw_drawCount (s : State)  : (s.takeDraw).drawCount = s.drawCount + 1 := rfl
@[simp] theorem State.writeKey_v (s : State) (k : Key) (p : Bool) : (s.writeKey k p).v = s.v := rfl
@[simp] theorem State.writeKey_i (s : State) (k : Key) (p : Bool) : (s.writeKey k p).i = s.i := rfl
@[simp] theorem State.writeKey_pc (s : State) (k : Key) (p : Bool) : (s.writeKey k p).pc = s.pc := rfl
@[simp] theorem State.writeKey_dt (s : State) (k : Key) (p : Bool) : (s.writeKey k p).dt = s.dt := rfl
@[simp] theorem State.writeKey_st (s : State) (k : Key) (p : Bool) : (s.writeKey k p).st = s.st := rfl
@[simp] theorem State.writeKey_stack (s : State) (k : Key) (p : Bool) : (s.writeKey k p).stack = s.stack := rfl
@[simp] theorem State.writeKey_sp (s : State) (k : Key) (p : Bool) : (s.writeKey k p).sp = s.sp := rfl
@[simp] theorem State.writeKey_mem (s : State) (k : Key) (p : Bool) : (s.writeKey k p).mem = s.mem := rfl
@[simp] theorem State.writeKey_fb (s : State) (k : Key) (p : Bool) : (s.writeKey k p).fb = s.fb := rfl
@[simp] theorem State.writeKey_key (s : State) (k : Key) (p : Bool) : (s.writeKey k p).key = s.key.set k p := rfl
@[simp] theorem State.writeKey_mode (s : State) (k : Key) (p : Bool) : (s.writeKey k p).mode = s.mode := rfl
@[simp] theorem State.writeKey_waitx (s : State) (k : Key) (p : Bool) : (s.writeKey k p).waitx = s.waitx := rfl
@[simp] theorem State.writeKey_fault (s : State) (k : Key) (p : Bool) : (s.writeKey k p).fault = s.fault := rfl
@[simp] theorem State.writeKey_schedule (s : State) (k : Key) (p : Bool) : (s.writeKey k p).schedule = s.schedule := rfl
@[simp] theorem State.writeKey_draws (s : State) (k : Key) (p : Bool) : (s.writeKey k p).draws = s.draws := rfl
@[simp] theorem State.writeKey_drawCount (s : State) (k : Key) (p : Bool) : (s.writeKey k p).drawCount = s.drawCount := rfl

/-! ### Registers through their accessor -/

theorem State.getV_setV (s : State) (r q : Reg) (b : Byte) :
    (s.setV r b).getV q = if q = r then b else s.getV q := by
  by_cases h : q = r
  · subst h; simp [State.getV, State.setV]
  · have : r.val ≠ q.val := fun e => h (Fin.ext e.symm)
    simp [State.getV, State.setV, h, Vector.getElem_set_ne, this]

@[simp] theorem State.getV_setV_self (s : State) (r : Reg) (b : Byte) : (s.setV r b).getV r = b := by
  simp [State.getV_setV]

theorem State.getV_setV_of_ne (s : State) {r q : Reg} (b : Byte) (h : q ≠ r) : (s.setV r b).getV q = s.getV q := by
  simp [State.getV_setV, h]

/-- The flag is written last (R33). -/
theorem State.getV_setVThenFlag (s : State) (x q : Reg) (a f : Byte) :
    (s.setVThenFlag x a f).getV q = if q = vf then f else if q = x then a else s.getV q := by
  simp [State.setVThenFlag, State.getV_setV]

@[simp] theorem State.getV_advance (s : State) (q : Reg) : s.advance.getV q = s.getV q := rfl
@[simp] theorem State.getV_skipIf (s : State) (c : Bool) (q : Reg) : (s.skipIf c).getV q = s.getV q := rfl
@[simp] theorem State.getV_jump (s : State) (t : Word) (q : Reg) : (s.jump t).getV q = s.getV q := rfl
@[simp] theorem State.getV_takeDraw (s : State) (q : Reg) : s.takeDraw.getV q = s.getV q := rfl
@[simp] theorem State.getV_writeKey (s : State) (k : Key) (p : Bool) (q : Reg) :
    (s.writeKey k p).getV q = s.getV q := rfl

/-- `FX65`'s block load: the registers up to VX come from memory, the others keep their values (R145). -/
theorem State.loadRange_getElem (s : State) (x q : Reg) :
    (s.loadRange x)[q] = if q ≤ x then s.mem.read (ea s.i q.val) else s.getV q := by
  simp [State.loadRange, State.getV]

/-! ### The call stack: the two operations in one lemma each -/

/-- A push fails exactly when 16 entries are live. -/
theorem State.pushReturn_eq_none (s : State) (ra : Word) : s.pushReturn ra = none ↔ s.sp.val = 16 := by
  have := s.sp.isLt
  simp only [State.pushReturn]
  split <;> simp <;> omega

/-- All that a push does: one more entry is live, the newest is the return address, the others stay, and nothing but the
stack changes. -/
theorem State.pushReturn_eq_some {s t : State} {ra : Word} (h : s.pushReturn ra = some t) :
    ∃ hs : s.sp.val < 16, t = { s with stack := s.stack.set s.sp.val ra hs, sp := ⟨s.sp.val + 1, by omega⟩ } := by
  simp only [State.pushReturn] at h
  split at h
  · exact ⟨‹_›, (Option.some.inj h).symm⟩
  · exact absurd h (by simp)

/-- A pop fails exactly when the stack is empty. -/
theorem State.popReturn_eq_none (s : State) : s.popReturn = none ↔ s.sp.val = 0 := by
  simp only [State.popReturn]
  split <;> simp <;> omega

/-- All that a pop does: the newest entry is answered, one entry fewer is live, no slot changes. -/
theorem State.popReturn_eq_some {s t : State} {ra : Word} (h : s.popReturn = some (ra, t)) :
    ∃ hs : 0 < s.sp.val, ra = s.stack[s.sp.val - 1]'(by omega) ∧
      t = { s with sp := ⟨s.sp.val - 1, by omega⟩ } := by
  simp only [State.popReturn] at h
  split at h
  · obtain ⟨rfl, rfl⟩ := Prod.mk.inj (Option.some.inj h)
    exact ⟨‹_›, rfl, rfl⟩
  · exact absurd h (by simp)

end Sys2Proof.Machine
end

