-- ==== Sys2Proof/Laws/Ops.lean ====
section
/-! SUPPORT. The shared operations in one lemma each: operands, flags, timers, SetKey, Reset, and the two meanings that
branch on the depth of the stack. -/

namespace Sys2Proof.Machine

/-! ### Operands and flags -/

theorem zext16_toNat (nnn : BitVec 12) : (zext16 nnn).toNat = nnn.toNat := by
  have := nnn.isLt
  simp [zext16]; omega

/-- `NNN + V0` never wraps (R104). -/
theorem zext16_add_zextByte_toNat (nnn : BitVec 12) (b : Byte) :
    (zext16 nnn + zextByte b).toNat = nnn.toNat + b.toNat := by
  have := nnn.isLt
  have := b.isLt
  simp [zext16, zextByte]; omega

theorem fontAddress_toNat (d : Fin 16) : (fontAddress d).toNat = 0x050 + 5 * d.val := by
  simp [fontAddress, fontBase, fontStride]; omega

theorem flagByte_cases (b : Bool) : flagByte b = 0 ∨ flagByte b = 1 := by cases b <;> simp [flagByte]

theorem flagByte_decide (p : Prop) [Decidable p] : flagByte (decide p) = BitVec.ofNat 8 (if p then 1 else 0) := by
  by_cases h : p <;> simp [flagByte, h]

theorem flagByte_not_decide (p : Prop) [Decidable p] : flagByte (!decide p) = BitVec.ofNat 8 (if p then 0 else 1) := by
  by_cases h : p <;> simp [flagByte, h]

theorem sub8_toNat (a b : Byte) : (sub8 a b).toNat = (256 + a.toNat - b.toNat) % 256 := by
  have := a.isLt
  have := b.isLt
  simp [sub8, BitVec.toNat_sub]; omega

theorem lowBitFlag_eq (a : Byte) : lowBitFlag a = BitVec.ofNat 8 (a.toNat % 2) := by revert a; decide

theorem highBitFlag_eq (a : Byte) : highBitFlag a = BitVec.ofNat 8 (a.toNat / 128) := by revert a; decide

theorem regsUpTo_length (s : State) (x : Reg) : (s.regsUpTo x).length = x.val + 1 := by
  have := x.isLt
  simp [State.regsUpTo]

/-! ### The reset contents of memory -/

theorem Memory.background_eq_zero {a : Nat} (h : a < 0x050 ∨ 0x0A0 ≤ a) : Memory.background a = 0 := by
  unfold Memory.background
  split
  · next hc =>
    have hl : fontData.length = 80 := rfl
    have hb : fontBase = 0x050 := rfl
    rw [List.getD_eq_default _ _ (by omega)]
  · rfl

/-! ### The two stack instructions -/

theorem execCall_of_lt (nnn : BitVec 12) (s : State) (h : s.sp.val < 16) :
    execCall nnn s = .next { s with
      stack := s.stack.set s.sp.val (s.pc + 2) h
      sp := ⟨s.sp.val + 1, by omega⟩
      pc := zext16 nnn } := by
  simp only [execCall, State.pushReturn, h]; rfl

theorem execCall_of_full (nnn : BitVec 12) (s : State) (h : s.sp.val = 16) :
    execCall nnn s = .next (s.raiseFault .stackOverflow (some (encode (.call nnn)))) := by
  simp only [execCall, (State.pushReturn_eq_none s (s.pc + 2)).2 h]

theorem execRet_of_pos (s : State) (h : 0 < s.sp.val) :
    execRet s = .next { s with sp := ⟨s.sp.val - 1, by omega⟩, pc := s.stack[s.sp.val - 1] } := by
  simp only [execRet, State.popReturn, h]; rfl

theorem execRet_of_empty (s : State) (h : s.sp.val = 0) :
    execRet s = .next (s.raiseFault .stackUnderflow (some 0x00EE)) := by
  simp only [execRet, (State.popReturn_eq_none s).2 h]; rfl

/-! ### The events -/

theorem countDown_toNat (b : Byte) : (countDown b).toNat = b.toNat - 1 := by revert b; decide

theorem tick_of_live (s : State) (h : s.mode ≠ .halt) :
    tick s = { s with dt := countDown s.dt, st := countDown s.st } := by
  unfold tick
  cases hm : s.mode <;> simp_all

theorem tick_of_halt (s : State) (h : s.mode = .halt) : tick s = s := by
  simp [tick, h]

theorem setKey_of_run (k : Key) (p : Bool) (s : State) (h : s.mode = .run) : setKey k p s = s.writeKey k p := by
  simp [setKey, h]

theorem setKey_of_halt (k : Key) (p : Bool) (s : State) (h : s.mode = .halt) : setKey k p s = s := by
  simp [setKey, h]

/-- A key that goes down while an `FX0A` waits. -/
theorem setKey_of_wait_down (k : Key) (s : State) (h : s.mode = .wait) (hk : s.key[k] = false) :
    setKey k true s = (s.writeKey k true).completeWait k := by
  have hk : s.key[k.val] = false := hk
  simp [setKey, h, hk]

/-- Every other SetKey event while an `FX0A` waits. -/
theorem setKey_of_wait_other (k : Key) (p : Bool) (s : State) (h : s.mode = .wait) (hk : p = false ∨ s.key[k] = true) :
    setKey k p s = s.writeKey k p := by
  rcases hk with rfl | hk
  · simp [setKey, h]
  · have hk : s.key[k.val] = true := hk
    simp [setKey, h, hk]

theorem getElem_set_key (key : Vector Bool 16) (k j : Key) (p : Bool) :
    (key.set k p)[j] = if j = k then p else key[j] := by
  by_cases h : j = k
  · subst h; simp
  · have : k.val ≠ j.val := fun e => h (Fin.ext e.symm)
    simp [h, Vector.getElem_set_ne, this]

theorem resetEvent_of_fits (rom : List Byte) (s : State) (h : rom.length ≤ 3584) :
    resetEvent rom s =
      .next { State.resetWith rom with schedule := s.schedule, draws := s.draws, drawCount := s.drawCount } :=
  if_pos h

theorem resetEvent_of_too_large (rom : List Byte) (s : State) (h : 3584 < rom.length) :
    resetEvent rom s = .refused (.romTooLarge rom.length) :=
  if_neg (by simp only [Config.romMax]; omega)

theorem cycle_of_fetchable (s : State) (hm : s.mode = .run) (hpc : s.pc.toNat ≤ 0x0FFE) :
    cycle s = exec (decodeWord (fetchWord s.mem s.pc)) s := by
  simp [cycle, hm, fetchable, hpc]

theorem cycle_of_not_run (s : State) (hm : s.mode ≠ .run) : cycle s = .next s := by
  cases h : s.mode <;> simp_all [cycle]

/-! ### Where a word is placed, and that the next step runs it -/

/-- The word placed for the next step is the word the next step fetches. -/
theorem fetchWord_placeWord (s : State) (w : Word) : fetchWord (s.placeWord w).mem (s.placeWord w).pc = w := by
  have key : ∀ (m : Memory) (a : Nat), wordOfBytes (((m.write a (highByte w)).write (a + 1) (lowByte w)).read a)
      (((m.write a (highByte w)).write (a + 1) (lowByte w)).read (a + 1)) = w := by
    intro m a
    rw [Memory.read_write_of_ne _ _ (by omega), Memory.read_write_self, Memory.read_write_self, wordOfBytes_high_low]
  exact key _ _

/-- A Cycle from the state with the word placed is the meaning of the word's instruction. -/
theorem cycle_placeWord (s : State) (w : Word) : cycle (s.placeWord w) = exec (decodeWord w) (s.placeWord w) := by
  have hpc : (s.placeWord w).pc.toNat ≤ 0x0FFE := by
    simp only [State.placeWord]
    split
    · next h => simpa [fetchable] using h
    · decide
  rw [cycle_of_fetchable _ rfl hpc, fetchWord_placeWord]

end Sys2Proof.Machine
end

