-- ==== Sys2Proof/Laws/PerInstr.lean ====
section
/-! SUPPORT. Families of statements over all instructions, one lemma per constructor. -/

namespace Sys2Proof.Laws

/-- The mask and the value of the row of R86 that an instruction belongs to. -/
def rowOf : Instr → Word × Word
  | .cls => (0xFFFF, 0x00E0)
  | .ret => (0xFFFF, 0x00EE)
  | .sys _ => (0xF000, 0x0000)
  | .jp _ => (0xF000, 0x1000)
  | .call _ => (0xF000, 0x2000)
  | .seImm _ _ => (0xF000, 0x3000)
  | .sneImm _ _ => (0xF000, 0x4000)
  | .seReg _ _ => (0xF00F, 0x5000)
  | .ldImm _ _ => (0xF000, 0x6000)
  | .addImm _ _ => (0xF000, 0x7000)
  | .ldReg _ _ => (0xF00F, 0x8000)
  | .orReg _ _ => (0xF00F, 0x8001)
  | .andReg _ _ => (0xF00F, 0x8002)
  | .xorReg _ _ => (0xF00F, 0x8003)
  | .addReg _ _ => (0xF00F, 0x8004)
  | .subReg _ _ => (0xF00F, 0x8005)
  | .shr _ _ => (0xF00F, 0x8006)
  | .subnReg _ _ => (0xF00F, 0x8007)
  | .shl _ _ => (0xF00F, 0x800E)
  | .sneReg _ _ => (0xF00F, 0x9000)
  | .ldI _ => (0xF000, 0xA000)
  | .jpV0 _ => (0xF000, 0xB000)
  | .rnd _ _ => (0xF000, 0xC000)
  | .drw _ _ _ => (0xF000, 0xD000)
  | .skp _ => (0xF0FF, 0xE09E)
  | .sknp _ => (0xF0FF, 0xE0A1)
  | .ldVxDt _ => (0xF0FF, 0xF007)
  | .ldVxK _ => (0xF0FF, 0xF00A)
  | .ldDtVx _ => (0xF0FF, 0xF015)
  | .ldStVx _ => (0xF0FF, 0xF018)
  | .addIVx _ => (0xF0FF, 0xF01E)
  | .ldFVx _ => (0xF0FF, 0xF029)
  | .ldBVx _ => (0xF0FF, 0xF033)
  | .storeRegs _ => (0xF0FF, 0xF055)
  | .loadRegs _ => (0xF0FF, 0xF065)
  | .unk _ => (0x0000, 0x0000)

/-! ### A word of a format under the mask of its row -/

theorem formatA_matches (t : BitVec 4) (nnn : BitVec 12) (v : Word) (hv : v.toNat = t.toNat * 4096) :
    formatA t nnn &&& 0xF000 = v := by
  have := nnn.isLt
  refine BitVec.eq_of_toNat_eq ((and_F000_toNat _).trans ?_)
  rw [formatA_toNat]; omega

theorem formatI_matches_F000 (t : BitVec 4) (x : Reg) (nn : Byte) (v : Word) (hv : v.toNat = t.toNat * 4096) :
    formatI t x nn &&& 0xF000 = v := by
  have := nn.isLt
  have := x.isLt
  refine BitVec.eq_of_toNat_eq ((and_F000_toNat _).trans ?_)
  rw [formatI_toNat]; omega

theorem formatI_matches_F0FF (t : BitVec 4) (x : Reg) (nn : Byte) (v : Word)
    (hv : v.toNat = t.toNat * 4096 + nn.toNat) : formatI t x nn &&& 0xF0FF = v := by
  have := nn.isLt
  have := x.isLt
  refine BitVec.eq_of_toNat_eq ((and_F0FF_toNat _).trans ?_)
  rw [formatI_toNat]; omega

theorem formatD_matches_F00F (t : BitVec 4) (x y : Reg) (n : BitVec 4) (v : Word)
    (hv : v.toNat = t.toNat * 4096 + n.toNat) : formatD t x y n &&& 0xF00F = v := by
  have := n.isLt
  have := x.isLt
  have := y.isLt
  refine BitVec.eq_of_toNat_eq ((and_F00F_toNat _).trans ?_)
  rw [formatD_toNat]; omega

theorem formatD_matches_F000 (t : BitVec 4) (x y : Reg) (n : BitVec 4) (v : Word) (hv : v.toNat = t.toNat * 4096) :
    formatD t x y n &&& 0xF000 = v := by
  have := n.isLt
  have := x.isLt
  have := y.isLt
  refine BitVec.eq_of_toNat_eq ((and_F000_toNat _).trans ?_)
  rw [formatD_toNat]; omega

namespace EncodesItsRow

/-- The word of `i` matches the row of R86 that `i` belongs to. -/
def Statement (i : Instr) : Prop := encode i &&& (rowOf i).1 = (rowOf i).2

theorem cls : Statement .cls := rfl
theorem ret : Statement .ret := rfl
theorem sys (nnn : BitVec 12) : Statement (.sys nnn) := formatA_matches _ _ _ rfl
theorem jp (nnn : BitVec 12) : Statement (.jp nnn) := formatA_matches _ _ _ rfl
theorem call (nnn : BitVec 12) : Statement (.call nnn) := formatA_matches _ _ _ rfl
theorem seImm (x : Reg) (nn : Byte) : Statement (.seImm x nn) := formatI_matches_F000 _ _ _ _ rfl
theorem sneImm (x : Reg) (nn : Byte) : Statement (.sneImm x nn) := formatI_matches_F000 _ _ _ _ rfl
theorem seReg (x y : Reg) : Statement (.seReg x y) := formatD_matches_F00F _ _ _ _ _ rfl
theorem ldImm (x : Reg) (nn : Byte) : Statement (.ldImm x nn) := formatI_matches_F000 _ _ _ _ rfl
theorem addImm (x : Reg) (nn : Byte) : Statement (.addImm x nn) := formatI_matches_F000 _ _ _ _ rfl
theorem ldReg (x y : Reg) : Statement (.ldReg x y) := formatD_matches_F00F _ _ _ _ _ rfl
theorem orReg (x y : Reg) : Statement (.orReg x y) := formatD_matches_F00F _ _ _ _ _ rfl
theorem andReg (x y : Reg) : Statement (.andReg x y) := formatD_matches_F00F _ _ _ _ _ rfl
theorem xorReg (x y : Reg) : Statement (.xorReg x y) := formatD_matches_F00F _ _ _ _ _ rfl
theorem addReg (x y : Reg) : Statement (.addReg x y) := formatD_matches_F00F _ _ _ _ _ rfl
theorem subReg (x y : Reg) : Statement (.subReg x y) := formatD_matches_F00F _ _ _ _ _ rfl
theorem shr (x y : Reg) : Statement (.shr x y) := formatD_matches_F00F _ _ _ _ _ rfl
theorem subnReg (x y : Reg) : Statement (.subnReg x y) := formatD_matches_F00F _ _ _ _ _ rfl
theorem shl (x y : Reg) : Statement (.shl x y) := formatD_matches_F00F _ _ _ _ _ rfl
theorem sneReg (x y : Reg) : Statement (.sneReg x y) := formatD_matches_F00F _ _ _ _ _ rfl
theorem ldI (nnn : BitVec 12) : Statement (.ldI nnn) := formatA_matches _ _ _ rfl
theorem jpV0 (nnn : BitVec 12) : Statement (.jpV0 nnn) := formatA_matches _ _ _ rfl
theorem rnd (x : Reg) (nn : Byte) : Statement (.rnd x nn) := formatI_matches_F000 _ _ _ _ rfl
theorem drw (x y : Reg) (n : BitVec 4) : Statement (.drw x y n) := formatD_matches_F000 _ _ _ _ _ rfl
theorem skp (x : Reg) : Statement (.skp x) := formatI_matches_F0FF _ _ _ _ rfl
theorem sknp (x : Reg) : Statement (.sknp x) := formatI_matches_F0FF _ _ _ _ rfl
theorem ldVxDt (x : Reg) : Statement (.ldVxDt x) := formatI_matches_F0FF _ _ _ _ rfl
theorem ldVxK (x : Reg) : Statement (.ldVxK x) := formatI_matches_F0FF _ _ _ _ rfl
theorem ldDtVx (x : Reg) : Statement (.ldDtVx x) := formatI_matches_F0FF _ _ _ _ rfl
theorem ldStVx (x : Reg) : Statement (.ldStVx x) := formatI_matches_F0FF _ _ _ _ rfl
theorem addIVx (x : Reg) : Statement (.addIVx x) := formatI_matches_F0FF _ _ _ _ rfl
theorem ldFVx (x : Reg) : Statement (.ldFVx x) := formatI_matches_F0FF _ _ _ _ rfl
theorem ldBVx (x : Reg) : Statement (.ldBVx x) := formatI_matches_F0FF _ _ _ _ rfl
theorem storeRegs (x : Reg) : Statement (.storeRegs x) := formatI_matches_F0FF _ _ _ _ rfl
theorem loadRegs (x : Reg) : Statement (.loadRegs x) := formatI_matches_F0FF _ _ _ _ rfl
theorem unk (w : Word) : Statement (.unk w) := BitVec.and_zero

end EncodesItsRow

end Sys2Proof.Laws
end

