-- ==== Sys2Proof/Tests/Slice0.lean ====
section
/-! SUPPORT. Tests whose expected results are the spec's own: words written out from the encodings of R86 and the vectors
of 95_test_vectors.md (their ids stand in the comments); and for every statement with hypotheses a witness that meets
them. -/

namespace Sys2Proof.Tests

open Sys2Proof Sys2Proof.Machine Sys2Proof.Statements

/-! ### Helpers -/

/-- The state after reset with these V registers. -/
def withV (l : List (Reg × Byte)) : State := l.foldl (fun s p => s.setV p.1 p.2) State.reset

/-- These bytes written to memory. -/
def withMem (s : State) (l : List (Nat × Byte)) : State :=
  { s with mem := l.foldl (fun m c => m.write c.1 c.2) s.mem }

/-- These pixels (row, column) set. -/
def lit (l : List (Nat × Nat)) : Framebuffer := l.foldl (fun fb p => fb.flip p.1 p.2) Framebuffer.blank

/-- A stack of `n` entries, all 0x0202. -/
def depth (s : State) (n : Fin 17) : State := { s with sp := n, stack := Vector.replicate 16 0x0202 }

/-- The next state of an outcome, if it is one. -/
def nextOf : Host.Outcome State Fault Refusal → Option State
  | .next s => some s
  | .fault _ => none
  | .refused _ => none

/-- The state after one step with the word `w` where the step fetches, and whether `P` holds of it. -/
def after (s : State) (w : Nat) (P : State → Bool) : Bool :=
  match step (s.withFetchWord 16 w) with
  | .next t => P t
  | .fault _ => false
  | .refused _ => false

/-- The state after one event, and whether `P` holds of it. -/
def afterEvent (s : State) (e : Event) (P : State → Bool) : Bool :=
  match perform e s with
  | .next t => P t
  | .fault _ => false
  | .refused _ => false

/-! ### WellFormed refuses ill-formed terms (R91, R87) -/

theorem test_wellFormed_refuses_sys_0E0 : (Instr.sys 0x0E0).wellFormed = false := by decide
theorem test_wellFormed_refuses_sys_0EE : (Instr.sys 0x0EE).wellFormed = false := by decide
theorem test_wellFormed_refuses_recognised_unk :
    (Instr.unk 0x8014).wellFormed = false ∧ (Instr.unk 0x5120).wellFormed = false ∧
    (Instr.unk 0x9120).wellFormed = false ∧ (Instr.unk 0xE19E).wellFormed = false ∧
    (Instr.unk 0xF165).wellFormed = false ∧ (Instr.unk 0x00E0).wellFormed = false := by decide
theorem test_wellFormed_accepts :
    (Instr.sys 0x1E0).wellFormed = true ∧ (Instr.unk 0x5121).wellFormed = true ∧
    (Instr.unk 0x8128).wellFormed = true ∧ (Instr.unk 0xE19F).wellFormed = true ∧
    (Instr.unk 0xFFFF).wellFormed = true := by decide

/-! ### Decoding: words written out from the encodings of R86 -/

theorem test_decode_flow :
    decodeWord 0x00E0 = .cls ∧ decodeWord 0x00EE = .ret ∧ decodeWord 0x0000 = .sys 0x000 ∧
    decodeWord 0x01E0 = .sys 0x1E0 ∧ decodeWord 0x1ABC = .jp 0xABC ∧ decodeWord 0x2300 = .call 0x300 ∧
    decodeWord 0xB123 = .jpV0 0x123 := by decide
theorem test_decode_skip :
    decodeWord 0x3F42 = .seImm 15 0x42 ∧ decodeWord 0x4300 = .sneImm 3 0x00 ∧ decodeWord 0x5120 = .seReg 1 2 ∧
    decodeWord 0x9AB0 = .sneReg 0xA 0xB := by decide
theorem test_decode_alu :
    decodeWord 0x6042 = .ldImm 0 0x42 ∧ decodeWord 0x7FFF = .addImm 15 0xFF ∧ decodeWord 0x8120 = .ldReg 1 2 ∧
    decodeWord 0x8121 = .orReg 1 2 ∧ decodeWord 0x8122 = .andReg 1 2 ∧ decodeWord 0x8123 = .xorReg 1 2 ∧
    decodeWord 0x8014 = .addReg 0 1 ∧ decodeWord 0x8015 = .subReg 0 1 ∧ decodeWord 0x8AB6 = .shr 0xA 0xB ∧
    decodeWord 0x8127 = .subnReg 1 2 ∧ decodeWord 0x810E = .shl 1 0 := by decide
theorem test_decode_rest :
    decodeWord 0xA2F0 = .ldI 0x2F0 ∧ decodeWord 0xC30F = .rnd 3 0x0F ∧ decodeWord 0xD125 = .drw 1 2 5 ∧
    decodeWord 0xE19E = .skp 1 ∧ decodeWord 0xE0A1 = .sknp 0 ∧ decodeWord 0xF407 = .ldVxDt 4 ∧
    decodeWord 0xF30A = .ldVxK 3 ∧ decodeWord 0xF015 = .ldDtVx 0 ∧ decodeWord 0xF518 = .ldStVx 5 := by decide
theorem test_decode_index :
    decodeWord 0xF11E = .addIVx 1 ∧ decodeWord 0xF229 = .ldFVx 2 ∧ decodeWord 0xF333 = .ldBVx 3 ∧
    decodeWord 0xF255 = .storeRegs 2 ∧ decodeWord 0xFA65 = .loadRegs 0xA := by decide
/-- The unrecognised words of R87, one of each kind; families 5 and 9 fix N (D12). -/
theorem test_decode_unk :
    decodeWord 0x5121 = .unk 0x5121 ∧ decodeWord 0x9121 = .unk 0x9121 ∧ decodeWord 0x8128 = .unk 0x8128 ∧
    decodeWord 0x812F = .unk 0x812F ∧ decodeWord 0xE19F = .unk 0xE19F ∧ decodeWord 0xE000 = .unk 0xE000 ∧
    decodeWord 0xF075 = .unk 0xF075 ∧ decodeWord 0xFFFF = .unk 0xFFFF := by decide
/-- R63: MEM[0x200] = 0x12, MEM[0x201] = 0x34 is 0x1234, not 0x3412; and one byte is no instruction. -/
theorem test_decode_bytes :
    decodeBytes [0x12, 0x34] = .ok (.jp 0x234, []) ∧ decodeBytes [0x12] = .error .truncated := ⟨rfl, rfl⟩
theorem test_decode_table_word :
    decodeTableWord 16 0x1234 = some (.jp 0x234) ∧ encodeBytes (.jp 0x234) = [0x12, 0x34] := by decide

/-! ### System and control flow -/

/-- DSP-1: VF is left, every pixel is 0. -/
theorem test_cls : after { withV [(15, 1)] with fb := lit [(0, 0), (31, 63)] } 0x00E0
    (fun t => !t.fb.pixel 0 0 && !t.fb.pixel 31 63 && t.getV 15 == 1 && t.pc == 0x0202) = true := by decide
/-- FLOW-10. -/
theorem test_ret : after { State.reset with pc := 0x0300, sp := 2, stack := (Vector.replicate 16 0x0202).set 1 0x1000 } 0x00EE
    (fun t => t.sp == 1 && t.pc == 0x1000 && t.mode == .run) = true := by decide
/-- FLOW-9. -/
theorem test_ret_underflow : after { State.reset with pc := 0x0300 } 0x00EE
    (fun t => t.mode == .halt && t.fault == ⟨.stackUnderflow, 0x0300, 0x00EE, true⟩ && t.pc == 0x0300 && t.sp == 0)
    = true := by decide
/-- FLOW-15. -/
theorem test_sys : after { State.reset with pc := 0x0FFE } 0x0000 (fun t => t.pc == 0x1000 && t.mode == .run) = true := by
  decide
/-- FLOW-3: an odd target. -/
theorem test_jp : after State.reset 0x1201 (fun t => t.pc == 0x0201 && t.sp == 0) = true := by decide
/-- FLOW-7. -/
theorem test_call : after { State.reset with pc := 0x0FFE } 0x2FFE
    (fun t => t.stack[0] == 0x1000 && t.sp == 1 && t.pc == 0x0FFE) = true := by decide
/-- FLOW-6. -/
theorem test_call_overflow : after (depth State.reset 16) 0x2300
    (fun t => t.mode == .halt && t.fault == ⟨.stackOverflow, 0x0200, 0x2300, true⟩ && t.pc == 0x0200 && t.sp == 16)
    = true := by decide
/-- FLOW-12: not reduced to 12 bits. -/
theorem test_jpV0 : after (withV [(0, 0xFF)]) 0xBFFF (fun t => t.pc == 0x10FE && t.getV 15 == 0) = true := by decide
/-- FLOW-13: V0 is used, not V1. -/
theorem test_jpV0_ignores_x : after (withV [(1, 0x55)]) 0xB123 (fun t => t.pc == 0x0123) = true := by decide
/-- FLOW-18: no skip although V1 = V2. -/
theorem test_unk : after (withV [(1, 7), (2, 7)]) 0x5121 (fun t => t.pc == 0x0202) = true := by decide

/-! ### Skips -/

/-- SKIP-1, SKIP-2. -/
theorem test_seImm : after (withV [(3, 0x42)]) 0x3342 (fun t => t.pc == 0x0204) = true ∧
    after (withV [(3, 0x42)]) 0x3343 (fun t => t.pc == 0x0202) = true := by decide
/-- SKIP-3, SKIP-4. -/
theorem test_sneImm : after (withV [(3, 0x42)]) 0x4342 (fun t => t.pc == 0x0202) = true ∧
    after (withV [(3, 0x42)]) 0x4300 (fun t => t.pc == 0x0204) = true := by decide
/-- SKIP-5, SKIP-6. -/
theorem test_seReg : after (withV [(1, 7), (2, 7)]) 0x5120 (fun t => t.pc == 0x0204) = true ∧
    after (withV [(1, 7), (2, 8)]) 0x5120 (fun t => t.pc == 0x0202) = true := by decide
/-- SKIP-8, SKIP-9. -/
theorem test_sneReg : after (withV [(1, 7), (2, 8)]) 0x9120 (fun t => t.pc == 0x0204) = true ∧
    after (withV [(1, 7), (2, 7)]) 0x9120 (fun t => t.pc == 0x0202) = true := by decide
/-- SKIP-12: a skip may leave memory; the next Cycle faults. -/
theorem test_skip_past_the_end : after { State.reset with pc := 0x0FFE } 0x3000 (fun t => t.pc == 0x1002 &&
    afterEvent t .cycle (fun u => u.fault.kind == .fetchOob && u.fault.pc == 0x1002 && !u.fault.opcodeValid)) = true := by
  decide

/-! ### Arithmetic and logic -/

/-- ALU-1. -/
theorem test_ldImm : after State.reset 0x6F42 (fun t => t.getV 15 == 0x42 && t.pc == 0x0202) = true := by decide
/-- ALU-2: no flag. -/
theorem test_addImm : after (withV [(1, 0xFF)]) 0x7102 (fun t => t.getV 1 == 1 && t.getV 15 == 0) = true := by decide
/-- ALU-4. -/
theorem test_ldReg : after (withV [(2, 0x5A)]) 0x8120 (fun t => t.getV 1 == 0x5A && t.getV 2 == 0x5A) = true := by decide
/-- ALU-5. -/
theorem test_orReg : after (withV [(1, 0xF0), (2, 0x0F), (15, 1)]) 0x8121
    (fun t => t.getV 1 == 0xFF && t.getV 15 == 1) = true := by decide
/-- ALU-6. -/
theorem test_andReg : after (withV [(1, 0xF0), (2, 0x3C), (15, 1)]) 0x8122
    (fun t => t.getV 1 == 0x30 && t.getV 15 == 1) = true := by decide
/-- ALU-7. -/
theorem test_xorReg : after (withV [(1, 0xF0), (2, 0x3C), (15, 1)]) 0x8123
    (fun t => t.getV 1 == 0xCC && t.getV 15 == 1) = true := by decide
/-- ALU-10, ALU-15: the old VF is the addend. -/
theorem test_addReg : after (withV [(0, 0x10), (1, 0x20), (15, 1)]) 0x8014
      (fun t => t.getV 0 == 0x30 && t.getV 15 == 0) = true ∧
    after (withV [(1, 0xFF), (15, 1)]) 0x81F4 (fun t => t.getV 1 == 0 && t.getV 15 == 1) = true := by decide
/-- ALU-13: the flag is written last (D13). -/
theorem test_addReg_vf : after (withV [(15, 0xFF), (1, 2)]) 0x8F14 (fun t => t.getV 15 == 1 && t.getV 1 == 2) = true := by
  decide
/-- ALU-16, ALU-17. -/
theorem test_subReg : after (withV [(0, 1), (1, 2)]) 0x8015 (fun t => t.getV 0 == 0xFF && t.getV 15 == 0) = true ∧
    after (withV [(0, 5), (1, 5)]) 0x8015 (fun t => t.getV 0 == 0 && t.getV 15 == 1) = true := by decide
/-- ALU-23: Y ignored. -/
theorem test_shr : after (withV [(1, 5), (0xA, 0xFF)]) 0x81A6
    (fun t => t.getV 1 == 2 && t.getV 0xA == 0xFF && t.getV 15 == 1) = true := by decide
/-- ALU-26: distinguishes D13 from the literal row order. -/
theorem test_shr_vf : after (withV [(15, 2)]) 0x8F06 (fun t => t.getV 15 == 0) = true := by decide
/-- ALU-27, ALU-28. -/
theorem test_subnReg : after (withV [(1, 2), (2, 1)]) 0x8127 (fun t => t.getV 1 == 0xFF && t.getV 15 == 0) = true ∧
    after (withV [(1, 1), (2, 3)]) 0x8127 (fun t => t.getV 1 == 2 && t.getV 15 == 1) = true := by decide
/-- ALU-32. -/
theorem test_shl : after (withV [(1, 0x81)]) 0x810E (fun t => t.getV 1 == 2 && t.getV 15 == 1) = true := by decide
/-- ALU-35. -/
theorem test_shl_vf : after (withV [(15, 0x80)]) 0x8F0E (fun t => t.getV 15 == 1) = true := by decide

/-! ### Random -/

/-- RND-1, and the draw is used up. -/
theorem test_rnd : after { State.reset with draws := [0xB7, 0x11] } 0xC30F
    (fun t => t.getV 3 == 7 && t.draws == [0x11] && t.drawCount == 1) = true := by decide
/-- RND-3: with NN = 0 the free draw does not matter. -/
theorem test_rnd_zero : (execRnd 3 0x00 (withV [(3, 0xAA)])) =
    .next ((withV [(3, 0xAA)]).takeDraw.setV 3 0x00).advance := by
  simp [execRnd]

/-! ### Index register and memory -/

/-- IDX-1. -/
theorem test_ldI : after { State.reset with i := 0xFFFF } 0xA2F0 (fun t => t.i == 0x02F0 && t.pc == 0x0202) = true := by
  decide
/-- IDX-7 and IDX-9. -/
theorem test_addIVx : after { withV [(1, 0xFF), (15, 1)] with i := 0x0F00 } 0xF11E
      (fun t => t.i == 0x0FFF && t.getV 15 == 0) = true ∧
    after { withV [(1, 0xFF)] with i := 0xFFFF } 0xF11E (fun t => t.i == 0x00FE && t.getV 15 == 1) = true := by decide
/-- IDX-10: the old VF is added, then the flag overwrites it. -/
theorem test_addIVx_vf : after { withV [(15, 1)] with i := 0x0300 } 0xFF1E
    (fun t => t.i == 0x0301 && t.getV 15 == 0) = true := by decide
/-- IDX-11, IDX-14. -/
theorem test_ldFVx : after (withV [(2, 0x0A)]) 0xF229 (fun t => t.i == 0x0082) = true ∧
    after (withV [(2, 0xFF)]) 0xF229 (fun t => t.i == 0x009B) = true := by decide
/-- IDX-15. -/
theorem test_ldBVx : after { withV [(3, 156)] with i := 0x0300 } 0xF333
    (fun t => t.mem.read 0x300 == 1 && t.mem.read 0x301 == 5 && t.mem.read 0x302 == 6 && t.i == 0x0300) = true := by decide
/-- IDX-21: past the last byte comes byte 0 (D8). -/
theorem test_storeRegs : after { withV [(0, 0xAB), (1, 0xCD)] with i := 0x0FFF } 0xF155
    (fun t => t.mem.read 0xFFF == 0xAB && t.mem.read 0x000 == 0xCD && t.i == 0x0FFF) = true := by decide
/-- IDX-22: the instruction overwrites itself. -/
theorem test_storeRegs_self : after { withV [(0, 0x12), (1, 0x34)] with i := 0x0200 } 0xF155
    (fun t => fetchWord t.mem 0x0200 == 0x1234 && t.pc == 0x0202) = true := by decide
/-- IDX-24. -/
theorem test_loadRegs : after { withMem State.reset [(0xFFF, 0xAA), (0x000, 0xBB)] with i := 0x0FFF } 0xF165
    (fun t => t.getV 0 == 0xAA && t.getV 1 == 0xBB) = true := by decide
/-- IDX-25: the font read as data; V2 keeps its value. -/
theorem test_loadRegs_font : after { withV [(2, 0x77)] with i := 0x0050 } 0xF165
    (fun t => t.getV 0 == 0xF0 && t.getV 1 == 0x90 && t.getV 2 == 0x77) = true := by decide
/-- A write of what an unlisted address reads as leaves no entry: equal memories are equal lists. -/
theorem test_memory_canonical :
    (Memory.write (Memory.write [] 0x300 5) 0x300 0) = [] ∧ Memory.write [] 0x050 0xF0 = [] ∧
    (Memory.write (Memory.write [] 0x301 2) 0x300 1) = [(0x300, 1), (0x301, 2)] := by decide

/-! ### Display -/

/-- DSP-5: glyph 0 at (30, 62), clipped at both edges. -/
theorem test_drw_clipped : after { withV [(1, 62), (2, 30)] with i := 0x0050 } 0xD125
    (fun t => t.fb.pixel 30 62 && t.fb.pixel 30 63 && t.fb.pixel 31 62 && !t.fb.pixel 31 63 && !t.fb.pixel 30 0 &&
      !t.fb.pixel 0 62 && t.getV 15 == 0 && t.pc == 0x0202) = true := by decide
/-- DSP-12: the start wraps, the second sprite byte is at address 0x000; DSP-8: a collision at the last column. -/
theorem test_drw : after { withMem (withV [(1, 8 + 64), (2, 30 + 32)]) [(0xFFF, 0x80), (0x000, 0xC0)] with i := 0x0FFF }
      0xD122 (fun t => t.fb.pixel 30 8 && t.fb.pixel 31 8 && t.fb.pixel 31 9 && !t.fb.pixel 30 9 && t.getV 15 == 0)
      = true ∧
    after { withMem (withV [(1, 60)]) [(0x300, 0xF0)] with i := 0x0300, fb := lit [(0, 63)] } 0xD121
      (fun t => t.fb.pixel 0 60 && t.fb.pixel 0 61 && t.fb.pixel 0 62 && !t.fb.pixel 0 63 && !t.fb.pixel 0 0 &&
        t.getV 15 == 1) = true := by decide

/-! ### Keypad -/

/-- KEY-3 and KEY-2. -/
theorem test_skp : after { withV [(0, 0x13)] with key := (State.reset.key).set 3 true } 0xE09E
      (fun t => t.pc == 0x0204) = true ∧
    after (withV [(0, 5)]) 0xE09E (fun t => t.pc == 0x0202) = true := by decide
/-- KEY-6 and KEY-4. -/
theorem test_sknp : after { withV [(0, 0xF5)] with key := (State.reset.key).set 5 true } 0xE0A1
      (fun t => t.pc == 0x0202) = true ∧
    after (withV [(0, 5)]) 0xE0A1 (fun t => t.pc == 0x0204) = true := by decide
/-- KEY-7: the held key 4 does not complete the wait. -/
theorem test_ldVxK : after { withV [(3, 0x99)] with key := (State.reset.key).set 4 true } 0xF30A
    (fun t => t.mode == .wait && t.waitx == 3 && t.pc == 0x0200 && t.getV 3 == 0x99) = true := by decide
/-- The end of KEY-7. -/
def waiting : State :=
  { withV [(3, 0x99)] with key := (State.reset.key).set 4 true, mode := .wait, waitx := 3, dt := 5 }
/-- KEY-10 to KEY-13. -/
theorem test_setKey_wait : (setKey 4 true waiting).mode = .wait ∧ (setKey 4 true waiting).key[4] = true ∧
    (setKey 4 false waiting).mode = .wait ∧
    (setKey 4 true (setKey 4 false waiting)).getV 3 = 4 ∧ (setKey 7 true waiting).getV 3 = 7 ∧
    (setKey 7 true waiting).pc = 0x0202 ∧ (setKey 7 true waiting).mode = .run ∧
    (setKey 7 true waiting).key[4] = true := by decide
/-- KEY-8 and KEY-9. -/
theorem test_wait_events : perform .cycle waiting = .next waiting ∧ (tick waiting).dt = 4 ∧
    (tick waiting).mode = .wait ∧ (tick waiting).pc = 0x0200 := ⟨rfl, rfl, rfl, rfl⟩

/-! ### Timers -/

/-- TMR-1. -/
theorem test_ldVxDt : after { withV [(4, 1)] with dt := 0x2A } 0xF407 (fun t => t.getV 4 == 0x2A && t.dt == 0x2A) = true := by
  decide
/-- TMR-2. -/
theorem test_ldDtVx : after (withV [(0, 0x0A)]) 0xF015 (fun t => t.dt == 0x0A && t.st == 0) = true := by decide
/-- TMR-4. -/
theorem test_ldStVx : after (withV [(5, 3)]) 0xF518 (fun t => t.st == 3 && t.tone && t.dt == 0) = true := by decide
/-- TMR-5, TMR-6, TMR-9. -/
theorem test_tick : (tick { State.reset with dt := 2, st := 1 }).dt = 1 ∧
    (tick { State.reset with dt := 2, st := 1 }).tone = false ∧ (tick State.reset).dt = 0 ∧
    (tick { State.reset with mode := .halt, dt := 5 }).dt = 5 := by decide

/-! ### Faults, reset, the step -/

/-- FLOW-21. -/
theorem test_fetchOob : afterEvent { State.reset with pc := 0x0FFF } .cycle
    (fun t => t.mode == .halt && t.fault.kind == .fetchOob && t.fault.pc == 0x0FFF && !t.fault.opcodeValid &&
      t.pc == 0x0FFF) = true := by decide
/-- FLT-5: ROM = 00 EE, through the step: Reset, then a Cycle. -/
theorem test_reset_then_return : afterEvent { State.reset with schedule := [] } (.reset [0x00, 0xEE])
    (fun t => t.pc == 0x0200 && t.mem == [(0x201, 0xEE)] && afterEvent t .cycle
      (fun u => u.fault == ⟨.stackUnderflow, 0x0200, 0x00EE, true⟩)) = true := by decide
/-- FLT-7. -/
theorem test_reset_refuses (rom : List Byte) (h : rom.length = 3585) :
    perform (.reset rom) State.reset = .refused (.romTooLarge 3585) := by
  rw [← h]
  exact resetEvent_of_too_large rom State.reset (by omega)
/-- The schedule's head is performed, and the rest is left. -/
theorem test_step_schedule : (nextOf (step { State.reset with dt := 9, schedule := [.tick, .cycle] })).map
    (fun t => (t.dt, t.pc, t.schedule)) = some (8, 0x0200, [.cycle]) := by decide

/-! ### Witnesses: concrete values that meet the hypotheses of each statement together -/

/-- Words that match the masks of the `Encodes` clauses. -/
theorem witness_encodes :
    (0x1ABC : Word) &&& 0xF000 = 0x1000 ∧ (0x2300 : Word) &&& 0xF000 = 0x2000 ∧ (0x3342 : Word) &&& 0xF000 = 0x3000 ∧
    (0x4342 : Word) &&& 0xF000 = 0x4000 ∧ (0x5FF0 : Word) &&& 0xF00F = 0x5000 ∧ (0x6042 : Word) &&& 0xF000 = 0x6000 ∧
    (0x7FFF : Word) &&& 0xF000 = 0x7000 ∧ (0x8120 : Word) &&& 0xF00F = 0x8000 ∧ (0x8121 : Word) &&& 0xF00F = 0x8001 ∧
    (0x8122 : Word) &&& 0xF00F = 0x8002 ∧ (0x8123 : Word) &&& 0xF00F = 0x8003 ∧ (0x8014 : Word) &&& 0xF00F = 0x8004 ∧
    (0x8015 : Word) &&& 0xF00F = 0x8005 ∧ (0x8AB6 : Word) &&& 0xF00F = 0x8006 ∧ (0x8127 : Word) &&& 0xF00F = 0x8007 ∧
    (0x8F0E : Word) &&& 0xF00F = 0x800E ∧ (0x9120 : Word) &&& 0xF00F = 0x9000 := by decide
theorem witness_encodes_rest :
    (0xA2F0 : Word) &&& 0xF000 = 0xA000 ∧ (0xBFFF : Word) &&& 0xF000 = 0xB000 ∧ (0xC30F : Word) &&& 0xF000 = 0xC000 ∧
    (0xD125 : Word) &&& 0xF000 = 0xD000 ∧ (0xE19E : Word) &&& 0xF0FF = 0xE09E ∧ (0xEFA1 : Word) &&& 0xF0FF = 0xE0A1 ∧
    (0xF407 : Word) &&& 0xF0FF = 0xF007 ∧ (0xF30A : Word) &&& 0xF0FF = 0xF00A ∧ (0xF015 : Word) &&& 0xF0FF = 0xF015 ∧
    (0xF518 : Word) &&& 0xF0FF = 0xF018 ∧ (0xFF1E : Word) &&& 0xF0FF = 0xF01E ∧ (0xF229 : Word) &&& 0xF0FF = 0xF029 ∧
    (0xF333 : Word) &&& 0xF0FF = 0xF033 ∧ (0xF255 : Word) &&& 0xF0FF = 0xF055 ∧ (0xFA65 : Word) &&& 0xF0FF = 0xF065 := by
  decide
/-- DecodeOfEncodeIsTheInstruction. -/
theorem witness_wellFormed : (Instr.sys 0x0E1).wellFormed = true ∧ (Instr.drw 15 15 15).wellFormed = true ∧
    (Instr.unk 0xF0FF).wellFormed = true := by decide
/-- DispatchIsFirstMatchInOpcodeMap: the three kinds of overlap. -/
theorem witness_overlap :
    opcodeRows[0].selects 0x00E0 = true ∧ opcodeRows[2].selects 0x00E0 = true ∧ opcodeRows[1].selects 0x00EE = true ∧
    opcodeRows[2].selects 0x00EE = true ∧ opcodeRows[34].selects 0xF065 = true ∧ opcodeRows[35].selects 0xF065 = true := by
  decide
/-- SysAndUnrecognisedWordsOnlyAdvancePc. -/
theorem witness_sys : (0x00E1 : Word) &&& 0xF000 = 0x0000 ∧ (0x00E1 : Word) ≠ 0x00E0 ∧ (0x00E1 : Word) ≠ 0x00EE ∧
    unrecognised 0x800F = true := by decide
/-- StepRunsTheDecodedInstruction: a scheduled event, none, a machine not running, and the highest PC that fetches. -/
theorem witness_step :
    ({ State.reset with schedule := [.tick] } : State).schedule = .tick :: [] ∧ State.reset.schedule = [] ∧
    waiting.mode ≠ .run ∧
    (let s : State := { withMem State.reset [(0x0FFE, 0x1A), (0x0FFF, 0xBC)] with pc := 0x0FFE }
     s.mode = .run ∧ s.pc.toNat ≤ 0x0FFE ∧
      decodeBytes [s.mem.read s.pc.toNat, s.mem.read (s.pc.toNat + 1)] = .ok (.jp 0xABC, [])) :=
  ⟨rfl, rfl, by decide, rfl, by decide, rfl⟩
/-- FetchPastTheEndOfMemoryHalts and FaultEntryRecordsAndHalts: the PCs where the clauses meet. -/
theorem witness_fetch :
    (let s : State := { State.reset with pc := 0x0FFF }
     s.mode = .run ∧ 0x0FFF ≤ s.pc.toNat) ∧
    (let s : State := { State.reset with pc := 0x0FFE }
     s.mode = .run ∧ s.pc.toNat ≤ 0x0FFE ∧ s.fault.kind ≠ .fetchOob ∧ (nextOf (perform .cycle s)).isSome = true) := by
  decide
/-- CallPushesTheReturnAddress, SeventeenthNestedCallOverflows, ReturnPopsTheNewestEntry: the depths at the bounds. -/
theorem witness_depths : (depth State.reset 15).sp.val < 16 ∧ (depth State.reset 16).sp.val = 16 ∧
    0 < (depth State.reset 1).sp.val ∧ State.reset.sp.val = 0 ∧ State.reset.mode = .run ∧
    (List.replicate 16 (0x200 : BitVec 12)).length = 16 := by decide
/-- ReturnResumesPastItsCall: a call, something that leaves the stack, a return. -/
theorem witness_call_return : ∃ t u : State, State.reset.sp.val < 16 ∧ exec (.call 0x300) State.reset = .next t ∧
    u.stack = t.stack ∧ u.sp = t.sp ∧ u.pc ≠ t.pc :=
  ⟨{ State.reset with stack := State.reset.stack.set 0 0x0202, sp := 1, pc := 0x0300 },
    { State.reset with stack := State.reset.stack.set 0 0x0202, sp := 1, pc := 0x0400 },
    by decide, rfl, rfl, rfl, by decide⟩
/-- The two conditions of SkipsOnImmediateFollowTheirCondition and SkipsOnRegistersFollowTheirCondition. -/
theorem witness_skips : (withV [(3, 0x42)]).getV 3 = 0x42 ∧ (withV [(3, 0x42)]).getV 3 ≠ 0x43 ∧
    (withV [(1, 7), (2, 7)]).getV 1 = (withV [(1, 7), (2, 7)]).getV 2 ∧
    (withV [(1, 7), (2, 8)]).getV 1 ≠ (withV [(1, 7), (2, 8)]).getV 2 := by decide
/-- SkipsOnKeysFollowTheKey: VX above 0xF, the key down and the key up. -/
theorem witness_skip_keys : (3 : Key).val = ((withV [(0, 0x13)]).getV 0).toNat % 16 ∧
    ({ withV [(0, 0x13)] with key := (State.reset.key).set 3 true } : State).key[(3 : Key)] = true ∧
    (withV [(0, 0x13)]).key[(3 : Key)] = false := by decide
/-- AdditionsAndSubtractionsSetTheirFlag, ShiftsSetTheBitShiftedOut: a destination that is not VF, and VF. -/
theorem witness_flag_destination : (14 : Reg) ≠ 15 ∧ (vf : Reg) = 15 := by decide
/-- RandomIsADrawUnderTheMask: a supplied draw. -/
theorem witness_draw : ({ State.reset with draws := [0xB7] } : State).draws.head? = some 0xB7 := rfl
/-- RegistersAreStoredFromV0ToVx, RegistersAreLoadedFromV0ToVx: the registers at the bound, and a byte not stored to. -/
theorem witness_store : (15 : Reg) ≤ 15 ∧ (2 : Reg) ≤ 2 ∧ (2 : Reg) < 3 ∧
    (∀ r : Reg, r ≤ 2 → 0x0002 ≠ ea 0x0FFF r.val) ∧ ea 0x0FFF 2 = 0x0001 := by decide
/-- DecimalDigitsAreStored: a byte that is none of the three. -/
theorem witness_digits : 0x0001 ≠ ea 0x0FFE 0 ∧ 0x0001 ≠ ea 0x0FFE 1 ∧ 0x0001 ≠ ea 0x0FFE 2 := by decide
/-- StoredWordIsFetchedNext: V0, V1 stored over the instruction itself. -/
theorem witness_stored_word : ∃ t : State, exec (.storeRegs 1) { State.reset with i := 0x0200 } = .next t ∧
    (1 : Reg).val = (0 : Reg).val + 1 ∧ (1 : Reg) ≤ 1 ∧ (0x0200 : Word).toNat = ea 0x0200 (0 : Reg).val ∧
    (0x0200 : Word).toNat ≤ 0x0FFE :=
  ⟨_, rfl, by decide, by decide, by decide, by decide⟩
/-- CanonicalMemoriesWithEqualReadsAreEqual. -/
theorem witness_canonical : ∃ m n : Memory, m.wf = true ∧ n.wf = true ∧ (∀ a, m.read a = n.read a) ∧ m ≠ [] :=
  ⟨[(0x300, 1)], Memory.write [] 0x300 1, by decide, by decide, fun _ => rfl, by decide⟩
/-- DrawXorsTheSpriteAndReportsCollision, DrawingTwiceRestoresTheScreen: two draws of one row at the last columns, with a
sprite bit on the screen and one clipped. -/
theorem witness_draw_twice : ∃ s t u r : State, exec (.drw 1 2 1) s = .next t ∧ u.fb = t.fb ∧ u.i = s.i ∧
    (∀ a, u.mem.read a = s.mem.read a) ∧ u.getV 1 = s.getV 1 ∧ u.getV 2 = s.getV 2 ∧
    exec (.drw 1 2 1) u = .next r ∧ spriteBit s 1 2 1 31 63 = true ∧ spriteBit s 1 2 1 31 0 = false :=
  ⟨{ withMem (withV [(1, 60), (2, 31)]) [(0x300, 0xFF)] with i := 0x0300 }, _, _, _, rfl, rfl, rfl, fun _ => rfl,
    by decide, by decide, rfl, by decide, by decide⟩
/-- The last clause of DrawingTwiceRestoresTheScreen: a sprite with no 1 bit on the screen (no rows). -/
theorem witness_empty_sprite : ∀ (row : Fin 32) (col : Fin 64), spriteBit State.reset 1 2 0 row col = false := by
  intro row col
  simp only [spriteBit, Bool.and_eq_false_iff, decide_eq_false_iff_not]
  left
  have h : (0 : BitVec 4).toNat = 0 := rfl
  omega
/-- The whole-machine statements over `exec i s = .next t`: an instruction of each kind they speak of completes. -/
theorem witness_exec :
    (nextOf (exec (.addReg 0 1) State.reset)).isSome = true ∧ (nextOf (exec (.jp 0xFFF) State.reset)).isSome = true ∧
    (nextOf (exec (.call 0x300) (depth State.reset 16))).isSome = true ∧ (nextOf (exec .ret State.reset)).isSome = true ∧
    (nextOf (exec (.ldVxK 3) State.reset)).isSome = true ∧ (nextOf (exec (.ldBVx 3) State.reset)).isSome = true ∧
    (nextOf (exec (.loadRegs 14) State.reset)).isSome = true ∧ writesFlag (.shr 1 0) = true ∧
    writesFlag (.ldImm 1 0) = false ∧ mayWriteV (.loadRegs 14) 15 = false ∧ mayWriteV (.addReg 0 1) 15 = true := by
  decide
/-- OnlyClearAndDrawWriteTheFramebuffer: a Cycle that changes a pixel. -/
theorem witness_clear_cycle :
    let s : State := { withMem State.reset [(0x200, 0x00), (0x201, 0xE0)] with fb := lit [(0, 0)] }
    afterEvent s .cycle (fun t => t.fb.pixel 0 0 != s.fb.pixel 0 0) = true := by decide
/-- KeyDownCompletesTheWait, WaitHoldsTheCoreButNotTheTimers: a key held (4), a key up (7), a ROM the loader accepts. -/
theorem witness_wait : waiting.mode = .wait ∧ waiting.key[(7 : Key)] = false ∧ waiting.key[(4 : Key)] = true ∧
    ([0x12, 0x00] : List Byte).length ≤ 3584 := by decide
/-- KeyWaitOutlastsCyclesAndTicks. -/
theorem witness_key_wait : ∃ t : State, State.reset.mode = .run ∧ exec (.ldVxK 3) State.reset = .next t ∧
    State.reset.key[(7 : Key)] = false := ⟨_, rfl, rfl, rfl⟩
/-- OnlySetKeyWritesTheKeypad, TickCountsTheTimersDown, TimerInstructionsMoveOneByte, HaltAbsorbsEveryEventButReset: the
modes and the timer values where their clauses meet. -/
theorem witness_modes :
    State.reset.mode = .run ∧ State.reset.key[(0 : Key)] = false ∧ State.reset.mode ≠ .halt ∧
    ({ State.reset with mode := .halt } : State).mode = .halt ∧ State.reset.dt = 0 ∧ State.reset.st = 0 ∧
    0 < ({ State.reset with dt := 1, st := 1 } : State).dt.toNat ∧
    0 < ({ State.reset with dt := 1, st := 1 } : State).st.toNat ∧ State.reset.schedule = [] := by decide
/-- ToneSoundsUntilTheTimerRunsOut. -/
theorem witness_tone : ∃ t : State, (withV [(5, 3)]).mode ≠ .halt ∧ exec (.ldStVx 5) (withV [(5, 3)]) = .next t :=
  ⟨_, by decide, rfl⟩
/-- TicksCommuteWithTimerlessInstructions. -/
theorem witness_commute : ∃ t : State, usesTimers (.storeRegs 15) = false ∧ State.reset.mode = .run ∧
    exec (.storeRegs 15) State.reset = .next t ∧ t.mode ≠ .halt := ⟨_, rfl, rfl, rfl, fun h => nomatch h⟩
/-- EndlessRunsAreNeitherFaultNorStuck: a wait, and the jump to itself at 0x200. -/
theorem witness_endless : waiting.schedule = [] ∧ waiting.mode = .wait ∧
    (let s : State := withMem State.reset [(0x200, 0x12), (0x201, 0x00)]
     s.schedule = [] ∧ s.mode = .run ∧ s.pc.toNat ≤ 0x0FFE ∧
      ∃ nnn : BitVec 12, decodeWord (fetchWord s.mem s.pc) = .jp nnn ∧ nnn.toNat = s.pc.toNat) :=
  ⟨rfl, rfl, rfl, rfl, by decide, 0x200, by decide, by decide⟩
/-- StaleStackSlotsAreUnobservable: two states that do differ in a stale slot. -/
theorem witness_stale : ∃ s t : State, s.SameButStaleSlots t ∧ s.stack ≠ t.stack :=
  ⟨depth State.reset 1, { depth State.reset 1 with stack := (depth State.reset 1).stack.set 1 0x0ABC },
    ⟨rfl, by decide⟩, by decide⟩
/-- WaitRegisterIsMeaninglessOutsideWait: two states that do differ in WAITX. -/
theorem witness_waitx : ∃ s t : State, s.SameButIdleWaitx t ∧ s.waitx ≠ t.waitx :=
  ⟨State.reset, { State.reset with waitx := 9 }, ⟨rfl, fun h => nomatch h⟩, by decide⟩
/-- The statements about Reset: a ROM that is accepted, and a HALT that Reset leaves. -/
theorem witness_reset : ∃ t : State, ([0x12, 0x00] : List Byte).length ≤ 3584 ∧
    ({ State.reset with mode := .halt } : State).mode = .halt ∧
    perform (.reset [0x12, 0x00]) { State.reset with mode := .halt } = .next t ∧ t.mode ≠ .halt ∧
    0 < ([0x12, 0x00] : List Byte).length ∧ 0 < fontData.length :=
  ⟨_, by decide, rfl, resetEvent_of_fits _ _ (by decide), by simp [State.resetWith, State.reset], by decide,
    by decide⟩

/-- The lengths at which Reset's acceptance turns: 0 and 3584 are accepted (the last byte then at 0xFFF), 3585 is not. -/
theorem witness_reset_lengths (b : Byte) :
    (∃ t : State, perform (.reset []) State.reset = .next t) ∧
    (∃ t : State, (List.replicate 3584 b).length = 3584 ∧ 0x200 + 3583 = 0xFFF ∧
      perform (.reset (List.replicate 3584 b)) State.reset = .next t) ∧
    perform (.reset (List.replicate 3585 b)) State.reset = .refused (.romTooLarge 3585) :=
  ⟨⟨_, resetEvent_of_fits _ _ (Nat.zero_le _)⟩,
    ⟨_, List.length_replicate .., rfl, resetEvent_of_fits _ _ (Nat.le_of_eq (List.length_replicate ..))⟩,
    test_reset_refuses _ (List.length_replicate ..)⟩

/-- An `FX0A` that waits where it stands. -/
def waitingInPlace : State :=
  { withMem State.reset [(0x200, 0xF3), (0x201, 0x0A)] with mode := .wait, waitx := 3 }
/-- The end of program P4: the seventeenth call. -/
def overflowed : State :=
  { withMem (depth State.reset 16) [(0x200, 0x22), (0x201, 0x00)] with
    mode := .halt, fault := ⟨.stackOverflow, 0x0200, 0x2200, true⟩ }
/-- EveryStepKeepsTheInvariant: in a wait. -/
theorem witness_inv_wait : ∃ t : State, waitingInPlace.Inv ∧ step waitingInPlace = .next t :=
  ⟨_, ⟨by decide, by decide, by decide, by decide, by decide⟩, rfl⟩
/-- FaultReportStaysTrueToTheState and EveryStepKeepsTheInvariant: in HALT. -/
theorem witness_inv_halt : ∃ t : State, overflowed.Inv ∧ overflowed.FaultReported ∧ step overflowed = .next t :=
  ⟨_, ⟨by decide, by decide, by decide, by decide, by decide⟩,
    ⟨fun _ => ⟨rfl, .inr (.inl ⟨rfl, rfl, by decide, rfl, by decide, 0x200, by decide⟩)⟩⟩, rfl⟩

/-! ### The host's two questions, on one word -/

/-- The word is placed where the next step fetches, even when PC stands past the end of memory. -/
theorem test_withFetchWord : after { State.reset with pc := 0x0FFF, mode := .halt, schedule := [.tick] } 0x6042
    (fun t => t.getV 0 == 0x42 && t.pc == 0x0202) = true := by decide

end Sys2Proof.Tests
end

section
/-! What uses the call stack, and that its stale slots are unobservable (R35). Two arguments: an operation that neither
reads nor writes the stack (`IgnoresStackAt`) relates any two states that differ in the stack alone; `CALL` and `RETURN`
touch one slot each, which is live on the side where it is read. -/

namespace Sys2Proof.Machine

open Sys2Proof.Statements

/-- The state with another call stack and another depth. -/
def State.withStack (s : State) (stack : Vector Word 16) (sp : Fin 17) : State := { s with stack := stack, sp := sp }

/-- In the state `s` the operation `f` answers a next state, keeps stack and depth, and does the same with any other
stack and depth in their place. -/
def IgnoresStackAt (f : State → Host.Outcome State Fault Refusal) (s : State) : Prop :=
  ∀ (stack : Vector Word 16) (sp : Fin 17), ∃ t : State, f s = .next t ∧ t.stack = s.stack ∧ t.sp = s.sp ∧
    f (s.withStack stack sp) = .next (t.withStack stack sp)

/-! ### Which event a step performs (R21, log 1) -/

theorem step_of_schedule_nil (s : State) (h : s.schedule = []) : step s = cycle s := by
  simp only [step, nextEvent, h, perform]

theorem step_of_schedule_cons (s : State) (e : Event) (rest : List Event) (h : s.schedule = e :: rest) :
    step s = perform e { s with schedule := rest } := by
  simp only [step, nextEvent, h]

/-! ### Operations that ignore the stack -/

/-- Every meaning but those of `CALL` and `RETURN` is written over operations on the other fields. -/
theorem exec_ignoresStackAt (i : Instr) (s : State) (hcall : ∀ nnn, i ≠ .call nnn) (hret : i ≠ .ret) :
    IgnoresStackAt (exec i) s := by
  intro stack sp
  cases i with
  | call nnn => exact absurd rfl (hcall nnn)
  | ret => exact absurd rfl hret
  | _ => exact ⟨_, rfl, rfl, rfl, rfl⟩

theorem raiseFault_ignoresStackAt (kind : FaultKind) (op : Option Word) (s : State) :
    IgnoresStackAt (fun s => .next (s.raiseFault kind op)) s :=
  fun _ _ => ⟨_, rfl, rfl, rfl, rfl⟩

theorem cycle_ignoresStackAt_of_not_run (s : State) (hm : s.mode ≠ .run) : IgnoresStackAt cycle s :=
  fun stack sp => ⟨s, cycle_of_not_run s hm, rfl, rfl, cycle_of_not_run (s.withStack stack sp) hm⟩

theorem tick_ignoresStackAt (s : State) : IgnoresStackAt (fun s => .next (tick s)) s := by
  intro stack sp
  by_cases hm : s.mode = .halt
  · exact ⟨s, congrArg _ (tick_of_halt s hm), rfl, rfl, congrArg _ (tick_of_halt (s.withStack stack sp) hm)⟩
  · exact ⟨_, congrArg _ (tick_of_live s hm), rfl, rfl, congrArg _ (tick_of_live (s.withStack stack sp) hm)⟩

theorem setKey_ignoresStackAt (k : Key) (pressed : Bool) (s : State) :
    IgnoresStackAt (fun s => .next (setKey k pressed s)) s := by
  intro stack sp
  cases hm : s.mode with
  | run =>
    exact ⟨_, congrArg _ (setKey_of_run k pressed s hm), rfl, rfl,
      congrArg _ (setKey_of_run k pressed (s.withStack stack sp) hm)⟩
  | halt =>
    exact ⟨_, congrArg _ (setKey_of_halt k pressed s hm), rfl, rfl,
      congrArg _ (setKey_of_halt k pressed (s.withStack stack sp) hm)⟩
  | wait =>
    by_cases hk : pressed = false ∨ s.key[k] = true
    · exact ⟨_, congrArg _ (setKey_of_wait_other k pressed s hm hk), rfl, rfl,
        congrArg _ (setKey_of_wait_other k pressed (s.withStack stack sp) hm hk)⟩
    · obtain ⟨rfl, hup⟩ : pressed = true ∧ s.key[k] = false := by simpa using hk
      exact ⟨_, congrArg _ (setKey_of_wait_down k s hm hup), rfl, rfl,
        congrArg _ (setKey_of_wait_down k (s.withStack stack sp) hm hup)⟩

/-! ### States that differ in stale slots alone -/

namespace State.SameButStaleSlots

theorem refl (s : State) : s.SameButStaleSlots s := ⟨rfl, fun _ _ => rfl⟩

theorem eq_withStack {s t : State} (h : s.SameButStaleSlots t) : t = s.withStack t.stack s.sp := h.rest

/-- What does not depend on the stack at a fixed depth is equal in the two states. -/
theorem apply_eq {α : Type} {s t : State} (h : s.SameButStaleSlots t) (f : State → α)
    (hf : ∀ stack, f (s.withStack stack s.sp) = f s) : f t = f s :=
  (congrArg f h.eq_withStack).trans (hf t.stack)

theorem sp_eq {s t : State} (h : s.SameButStaleSlots t) : t.sp = s.sp := h.apply_eq State.sp fun _ => rfl

/-- The host reads no slot of the stack (R23). -/
theorem hostView_eq {s t : State} (h : s.SameButStaleSlots t) : s.hostView = t.hostView :=
  (h.apply_eq State.hostView fun _ => rfl).symm

/-- An operation that ignores the stack keeps the slots that are stale, and what they hold. -/
theorem outcomesRelated_of_ignoresStackAt {f : State → Host.Outcome State Fault Refusal} {s t : State}
    (hf : IgnoresStackAt f s) (h : s.SameButStaleSlots t) :
    OutcomesRelated State.SameButStaleSlots (f s) (f t) := by
  obtain ⟨u, hfs, hstack, hsp, hft⟩ := hf t.stack s.sp
  rw [← h.eq_withStack] at hft
  rw [hfs, hft]
  refine ⟨by rw [State.withStack, ← hsp], fun k hk => ?_⟩
  rw [hsp] at hk
  rw [hstack]
  exact h.live k hk

theorem raiseFault {s t : State} (h : s.SameButStaleSlots t) (kind : FaultKind) (op : Option Word) :
    (s.raiseFault kind op).SameButStaleSlots (t.raiseFault kind op) :=
  outcomesRelated_of_ignoresStackAt (raiseFault_ignoresStackAt kind op s) h

/-- The schedule is no part of the stack: the states still differ in stale slots alone once the event to perform has
been taken off it. -/
theorem dropEvent {s t : State} (h : s.SameButStaleSlots t) (rest : List Event) :
    { s with schedule := rest }.SameButStaleSlots { t with schedule := rest } :=
  outcomesRelated_of_ignoresStackAt (f := fun s => .next { s with schedule := rest })
    (fun _ _ => ⟨_, rfl, rfl, rfl, rfl⟩) h

/-- `CALL` writes the slot at SP, the one slot that it makes live. -/
theorem execCall_related {s t : State} (h : s.SameButStaleSlots t) (nnn : BitVec 12) :
    OutcomesRelated State.SameButStaleSlots (execCall nnn s) (execCall nnn t) := by
  obtain hfull | hlt : s.sp.val = 16 ∨ s.sp.val < 16 := by omega
  · rw [execCall_of_full nnn s hfull, execCall_of_full nnn t (h.sp_eq ▸ hfull)]
    exact h.raiseFault _ _
  · obtain ⟨hrest, hlive⟩ := h
    generalize t.stack = stack at hrest hlive
    subst hrest
    rw [execCall_of_lt nnn s hlt, execCall_of_lt nnn { s with stack := stack } hlt]
    refine ⟨rfl, fun k hk => ?_⟩
    by_cases hk' : k.val = s.sp.val
    · simp [← hk']
    · have hk : k.val < s.sp.val + 1 := hk
      have := hlive k (by omega)
      simpa [Vector.getElem_set_ne, Ne.symm hk'] using this

/-- `RETURN` reads the slot below SP, which is live. -/
theorem execRet_related {s t : State} (h : s.SameButStaleSlots t) :
    OutcomesRelated State.SameButStaleSlots (execRet s) (execRet t) := by
  obtain hempty | hpos : s.sp.val = 0 ∨ 0 < s.sp.val := by omega
  · rw [execRet_of_empty s hempty, execRet_of_empty t (h.sp_eq ▸ hempty)]
    exact h.raiseFault _ _
  · obtain ⟨hrest, hlive⟩ := h
    generalize t.stack = stack at hrest hlive
    subst hrest
    rw [execRet_of_pos s hpos, execRet_of_pos { s with stack := stack } hpos]
    have hpopped : stack[s.sp.val - 1] = s.stack[s.sp.val - 1] :=
      hlive ⟨s.sp.val - 1, by omega⟩ (by simp only; omega)
    refine ⟨by simp only [hpopped], fun k hk => hlive k ?_⟩
    have hk : k.val < s.sp.val - 1 := hk
    omega

theorem exec_related {s t : State} (h : s.SameButStaleSlots t) (i : Instr) :
    OutcomesRelated State.SameButStaleSlots (exec i s) (exec i t) := by
  cases i with
  | call nnn => exact h.execCall_related nnn
  | ret => exact h.execRet_related
  | _ => exact outcomesRelated_of_ignoresStackAt (exec_ignoresStackAt _ s nofun nofun) h

/-- The fetch reads MODE, PC and memory, none of which differs. -/
theorem cycle_related {s t : State} (h : s.SameButStaleSlots t) :
    OutcomesRelated State.SameButStaleSlots (cycle s) (cycle t) := by
  by_cases hm : s.mode = .run
  · have hmt : t.mode = .run := (h.apply_eq State.mode fun _ => rfl).trans hm
    have hpc : t.pc = s.pc := h.apply_eq State.pc fun _ => rfl
    have hmem : t.mem = s.mem := h.apply_eq State.mem fun _ => rfl
    simp only [cycle, hm, hmt, hpc, hmem]
    split
    · exact h.exec_related _
    · exact h.raiseFault _ _
  · exact outcomesRelated_of_ignoresStackAt (cycle_ignoresStackAt_of_not_run s hm) h

/-- Reset reads of the state before it only the inputs to come (R200), so the two outcomes are the same. -/
theorem resetEvent_related {s t : State} (h : s.SameButStaleSlots t) (rom : List Byte) :
    OutcomesRelated State.SameButStaleSlots (resetEvent rom s) (resetEvent rom t) := by
  rw [h.apply_eq (resetEvent rom) fun _ => rfl]
  by_cases hfit : rom.length ≤ 3584
  · rw [resetEvent_of_fits rom s hfit]
    exact refl _
  · rw [resetEvent_of_too_large rom s (by omega)]
    rfl

theorem perform_related {s t : State} (h : s.SameButStaleSlots t) (e : Event) :
    OutcomesRelated State.SameButStaleSlots (perform e s) (perform e t) := by
  cases e with
  | cycle => exact h.cycle_related
  | tick => exact outcomesRelated_of_ignoresStackAt (tick_ignoresStackAt s) h
  | setKey k pressed => exact outcomesRelated_of_ignoresStackAt (setKey_ignoresStackAt k pressed s) h
  | reset rom => exact h.resetEvent_related rom

theorem step_related {s t : State} (h : s.SameButStaleSlots t) :
    OutcomesRelated State.SameButStaleSlots (step s) (step t) := by
  have hsched : t.schedule = s.schedule := h.apply_eq State.schedule fun _ => rfl
  cases hs : s.schedule with
  | nil =>
    rw [step_of_schedule_nil s hs, step_of_schedule_nil t (hsched.trans hs)]
    exact h.cycle_related
  | cons e rest =>
    rw [step_of_schedule_cons s e rest hs, step_of_schedule_cons t e rest (hsched.trans hs)]
    exact (h.dropEvent rest).perform_related e

end State.SameButStaleSlots

/-- Settles O53: all instructions but `CALL` and `RETURN` ignore the stack, and every event keeps a difference in stale
slots alone. -/
theorem staleStackSlotsAreUnobservable : Obligations.StaleStackSlotsAreUnobservable :=
  ⟨fun i s stack sp hcall hret => exec_ignoresStackAt i s hcall hret stack sp,
    fun _ _ h => ⟨h.hostView_eq, h.step_related⟩⟩

end Sys2Proof.Machine
end

section
/-! Who writes memory (R60): `FX33` and `FX55`, both through one block store at the effective addresses of R64, which lie
below 4096; every other meaning and the events of the other agents keep memory. -/

namespace Sys2Proof.Machine

/-- A block store wraps within the 4096 bytes (R64): it reaches no address above them. -/
theorem Memory.read_storeFrom_of_ge (m : Memory) (i : Word) (k : Nat) (bs : List Byte) {a : Nat} (ha : 4096 ≤ a) :
    (m.storeFrom i k bs).read a = m.read a :=
  Memory.read_storeFrom_of_ne bs m i k a fun j _ => by
    have := ea_lt i (k + j)
    omega

/-! ### Instructions -/

/-- `CALL` writes the call stack, or the fault record when the stack is full (R103, R181). -/
theorem execCall_mem {nnn : BitVec 12} {s t : State} (h : execCall nnn s = .next t) : t.mem = s.mem := by
  by_cases hsp : s.sp.val < 16
  · rw [execCall_of_lt nnn s hsp] at h
    cases h; rfl
  · rw [execCall_of_full nnn s (by omega)] at h
    cases h; rfl

/-- `RETURN` writes SP and PC, or the fault record when the stack is empty (R100, R182). -/
theorem execRet_mem {s t : State} (h : execRet s = .next t) : t.mem = s.mem := by
  by_cases hsp : 0 < s.sp.val
  · rw [execRet_of_pos s hsp] at h
    cases h; rfl
  · rw [execRet_of_empty s (by omega)] at h
    cases h; rfl

/-- All that an instruction can do to memory: `FX33` stores the digits of VX and `FX55` the registers up to VX, both from
I on, and any other instruction keeps it. -/
theorem exec_mem_cases {i : Instr} {s t : State} (h : exec i s = .next t) :
    (∃ x, i = .ldBVx x ∧ t.mem = s.mem.storeFrom s.i 0 (decimalDigits (s.getV x))) ∨
    (∃ x, i = .storeRegs x ∧ t.mem = s.mem.storeFrom s.i 0 (s.regsUpTo x)) ∨
    t.mem = s.mem := by
  cases i with
  | ldBVx x => cases h; exact .inl ⟨x, rfl, rfl⟩
  | storeRegs x => cases h; exact .inr (.inl ⟨x, rfl, rfl⟩)
  | call nnn => exact .inr (.inr (execCall_mem h))
  | ret => exact .inr (.inr (execRet_mem h))
  | _ => cases h; exact .inr (.inr rfl)

theorem exec_mem_of_not_store {i : Instr} {s t : State} (h : exec i s = .next t) (hdigits : ∀ x, i ≠ .ldBVx x)
    (hregs : ∀ x, i ≠ .storeRegs x) : t.mem = s.mem := by
  obtain ⟨x, hi, -⟩ | ⟨x, hi, -⟩ | hmem := exec_mem_cases h
  · exact absurd hi (hdigits x)
  · exact absurd hi (hregs x)
  · exact hmem

theorem exec_read_of_ge {i : Instr} {s t : State} {a : Nat} (h : exec i s = .next t) (ha : 4096 ≤ a) :
    t.mem.read a = s.mem.read a := by
  obtain ⟨x, -, hmem⟩ | ⟨x, -, hmem⟩ | hmem := exec_mem_cases h
  · rw [hmem, Memory.read_storeFrom_of_ge _ _ _ _ ha]
  · rw [hmem, Memory.read_storeFrom_of_ge _ _ _ _ ha]
  · rw [hmem]

/-! ### Events -/

@[simp] theorem tick_mem (s : State) : (tick s).mem = s.mem := by
  by_cases hm : s.mode = .halt
  · rw [tick_of_halt s hm]
  · rw [tick_of_live s hm]

/-- In WAIT too: a key that completes the wait writes V, PC and MODE (R164). -/
@[simp] theorem setKey_mem (k : Key) (p : Bool) (s : State) : (setKey k p s).mem = s.mem := by
  cases hm : s.mode with
  | run => rw [setKey_of_run k p s hm, State.writeKey_mem]
  | halt => rw [setKey_of_halt k p s hm]
  | wait =>
    by_cases hk : p = false ∨ s.key[k] = true
    · rw [setKey_of_wait_other k p s hm hk, State.writeKey_mem]
    · obtain ⟨rfl, hup⟩ : p = true ∧ s.key[k] = false := by simpa using hk
      rw [setKey_of_wait_down k s hm hup, State.completeWait_mem, State.writeKey_mem]

/-- Settles O52: by what an instruction can do to memory (`exec_mem_cases`), and that no event but a Cycle or a Reset
writes it. -/
theorem onlyTwoInstructionsWriteMemory : Obligations.OnlyTwoInstructionsWriteMemory :=
  ⟨fun _ _ _ h hdigits hregs _ => by rw [exec_mem_of_not_store h hdigits hregs],
    fun s _ => by rw [tick_mem],
    fun k p s _ => by rw [setKey_mem],
    fun _ _ _ _ h ha => exec_read_of_ge h ha⟩

end Sys2Proof.Machine
end

section
/-! Every word is the encoding of what it decodes to (R84): a word is put together again from its fields by each format of
R82, and the dispatch of R85 keeps, beside the fields that an instruction holds, those that it fixes. -/

namespace Sys2Proof

/-! ### The fields put together again (R81, R84) -/

theorem toNat_eq_of_fields (w : Word) :
    w.toNat = (fieldT w).toNat * 4096 + (fieldX w).val * 256 + (fieldY w).val * 16 + (fieldN w).toNat := by
  have := w.isLt
  rw [fieldT_toNat, fieldX_val, fieldY_val, fieldN_toNat]
  omega

theorem fieldNN_toNat_eq_of_fields (w : Word) : (fieldNN w).toNat = (fieldY w).val * 16 + (fieldN w).toNat := by
  rw [fieldNN_toNat, fieldY_val, fieldN_toNat]
  omega

theorem fieldNNN_toNat_eq_of_fields (w : Word) :
    (fieldNNN w).toNat = (fieldX w).val * 256 + (fieldY w).val * 16 + (fieldN w).toNat := by
  rw [fieldNNN_toNat, fieldX_val, fieldY_val, fieldN_toNat]
  omega

variable {w : Word} {t : BitVec 4}

theorem formatA_of_fields (ht : (fieldT w).toNat = t.toNat) : formatA t (fieldNNN w) = w := by
  apply BitVec.eq_of_toNat_eq
  rw [formatA_toNat, fieldNNN_toNat_eq_of_fields, toNat_eq_of_fields w, ht]
  omega

theorem formatI_of_fields {nn : Byte} (ht : (fieldT w).toNat = t.toNat) (hnn : (fieldNN w).toNat = nn.toNat) :
    formatI t (fieldX w) nn = w := by
  apply BitVec.eq_of_toNat_eq
  rw [formatI_toNat, ← hnn, fieldNN_toNat_eq_of_fields, toNat_eq_of_fields w, ht]
  omega

theorem formatD_of_fields {n : BitVec 4} (ht : (fieldT w).toNat = t.toNat) (hn : (fieldN w).toNat = n.toNat) :
    formatD t (fieldX w) (fieldY w) n = w := by
  apply BitVec.eq_of_toNat_eq
  rw [formatD_toNat, ← hn, toNat_eq_of_fields w, ht]

/-! ### The words of UNK (R87) -/

theorem unrecognised_iff (w : Word) : unrecognised w = true ↔
    (((fieldT w).toNat = 5 ∨ (fieldT w).toNat = 9) ∧ (fieldN w).toNat ≠ 0) ∨
    ((fieldT w).toNat = 8 ∧ (fieldN w).toNat ∈ [0x8, 0x9, 0xA, 0xB, 0xC, 0xD, 0xF]) ∨
    ((fieldT w).toNat = 0xE ∧ (fieldNN w).toNat ∉ [0x9E, 0xA1]) ∨
    ((fieldT w).toNat = 0xF ∧ (fieldNN w).toNat ∉ [0x07, 0x0A, 0x15, 0x18, 0x1E, 0x29, 0x33, 0x55, 0x65]) := by
  simp only [unrecognised, fieldT_toNat, fieldN_toNat, fieldNN_toNat, Bool.or_eq_true, Bool.and_eq_true, beq_iff_eq,
    bne_iff_ne, Bool.not_eq_true', List.contains_eq_mem, decide_eq_true_eq, decide_eq_false_iff_not, or_assoc]

/-! ### What each branch of the dispatch reads is encoded back (R85) -/

/-- `i` is an instruction and `w` is its word. -/
def IsWordOf (w : Word) (i : Instr) : Prop := encode i = w ∧ i.wellFormed = true

theorem isWordOf_unk (h : unrecognised w = true) : IsWordOf w (.unk w) := ⟨rfl, h⟩

theorem isWordOf_sys (ht : (fieldT w).toNat = 0x0) (hcls : w ≠ 0x00E0#16) (hret : w ≠ 0x00EE#16) :
    IsWordOf w (.sys (fieldNNN w)) := by
  have hw : formatA 0x0 (fieldNNN w) = w := formatA_of_fields ht
  refine ⟨hw, ?_⟩
  have hE0 : fieldNNN w ≠ 0x0E0#12 := fun h => hcls (by rw [← hw, h]; rfl)
  have hEE : fieldNNN w ≠ 0x0EE#12 := fun h => hret (by rw [← hw, h]; rfl)
  simp [Instr.wellFormed, hE0, hEE]

/-- Families 5 and 9: UNK keeps the words with N other than 0. -/
theorem isWordOf_unk_of_fieldN_ne (ht : (fieldT w).toNat = 5 ∨ (fieldT w).toNat = 9) (hn : fieldN w ≠ 0#4) :
    IsWordOf w (.unk w) :=
  isWordOf_unk ((unrecognised_iff w).mpr (.inl ⟨ht, fun h => hn (BitVec.eq_of_toNat_eq h)⟩))

theorem isWordOf_decodeArith (ht : (fieldT w).toNat = 0x8) : IsWordOf w (decodeArith w) := by
  unfold decodeArith
  split
  case h_10 =>
    have := (fieldN w).isLt
    refine isWordOf_unk ((unrecognised_iff w).mpr (.inr (.inl ⟨ht, ?_⟩)))
    simp only [List.mem_cons, List.not_mem_nil, imp_false] at *
    omega
  all_goals exact ⟨formatD_of_fields ht ‹_›, rfl⟩

theorem isWordOf_decodeKey (ht : (fieldT w).toNat = 0xE) : IsWordOf w (decodeKey w) := by
  unfold decodeKey
  split
  case h_3 =>
    refine isWordOf_unk ((unrecognised_iff w).mpr (.inr (.inr (.inl ⟨ht, ?_⟩))))
    simp only [imp_false] at *
    simp [*]
  all_goals exact ⟨formatI_of_fields ht ‹_›, rfl⟩

theorem isWordOf_decodeMisc (ht : (fieldT w).toNat = 0xF) : IsWordOf w (decodeMisc w) := by
  unfold decodeMisc
  split
  case h_10 =>
    refine isWordOf_unk ((unrecognised_iff w).mpr (.inr (.inr (.inr ⟨ht, ?_⟩))))
    simp only [imp_false] at *
    simp [*]
  all_goals exact ⟨formatI_of_fields ht ‹_›, rfl⟩

/-- By the families of R85, in the order of their number T. -/
theorem isWordOf_decodeWord (w : Word) : IsWordOf w (decodeWord w) := by
  unfold decodeWord
  split
  case h_1 ht =>
    split_ifs with hcls hret
    · exact ⟨hcls.symm, rfl⟩
    · exact ⟨hret.symm, rfl⟩
    · exact isWordOf_sys ht hcls hret
  case h_6 ht =>
    split_ifs with hn
    · exact ⟨formatD_of_fields ht (congrArg _ hn), rfl⟩
    · exact isWordOf_unk_of_fieldN_ne (.inl ht) hn
  case h_9 ht => exact isWordOf_decodeArith ht
  case h_10 ht =>
    split_ifs with hn
    · exact ⟨formatD_of_fields ht (congrArg _ hn), rfl⟩
    · exact isWordOf_unk_of_fieldN_ne (.inr ht) hn
  case h_14 ht => exact ⟨formatD_of_fields ht rfl, rfl⟩
  case h_15 ht => exact isWordOf_decodeKey ht
  case h_16 =>
    have := (fieldT w).isLt
    simp only [imp_false] at *
    exact isWordOf_decodeMisc (by omega)
  case h_2 ht | h_3 ht | h_11 ht | h_12 ht => exact ⟨formatA_of_fields ht, rfl⟩
  case h_4 ht | h_5 ht | h_7 ht | h_8 ht | h_13 ht => exact ⟨formatI_of_fields ht rfl, rfl⟩

/-- Settles O2: the field equations, and that the dispatch reads every word into an instruction of that word. -/
theorem reencodingReconstructsEveryWord : Obligations.ReencodingReconstructsEveryWord :=
  fun w => ⟨toNat_eq_of_fields w, fieldNN_toNat_eq_of_fields w, fieldNNN_toNat_eq_of_fields w, isWordOf_decodeWord w⟩

end Sys2Proof
end

section
/-! Jumps (R102): the word of family 1 is a `JP`, and a jump writes PC alone. -/

namespace Sys2Proof.Machine

open Sys2Proof.Statements

/-- The frame of R102: a jump leaves the stack, and all else but PC, as it was. -/
theorem changesOnlyPc_jump (s : State) (target : Word) : ChangesOnlyPc s (s.jump target) := ⟨rfl, fun _ => rfl⟩

/-- The mask 0xF000 leaves family 1 alone (R86, row 4). -/
theorem encodes_jp : Encodes 0xF000 0x1000 (fun w => .jp (fieldNNN w)) := fun w hw => by
  have ht : (fieldT w).toNat = 1 := fieldT_of_and_F000 hw
  simp only [decodeWord, ht]

/-- `JP` is the jump to NNN widened to the 16 bits of PC. -/
theorem exec_jp (nnn : BitVec 12) (s : State) : exec (.jp nnn) s = .next (s.jump (zext16 nnn)) := rfl

/-- Settles O10: `JP` is one jump, whose target keeps the value of NNN. -/
theorem jumpSetsPcToItsAddress : Obligations.JumpSetsPcToItsAddress :=
  ⟨encodes_jp, fun nnn s => ⟨s.jump (zext16 nnn), exec_jp nnn s, zext16_toNat nnn, changesOnlyPc_jump s _⟩⟩

end Sys2Proof.Machine
end

section
/-! Skips (R114): a skip writes PC alone, by 4 or by 2 as its condition holds or not. -/

namespace Sys2Proof.Machine

open Sys2Proof.Statements

/-! ### Every skip -/

/-- The frame of R114: either way a skip leaves all but PC as it was. -/
theorem changesOnlyPc_skipIf (s : State) (c : Bool) : ChangesOnlyPc s (s.skipIf c) := ⟨rfl, fun _ => rfl⟩

theorem skipIf_pc_of_true {s : State} {c : Bool} (hc : c = true) : (s.skipIf c).pc = s.pc + 4 := if_pos hc

theorem skipIf_pc_of_false {s : State} {c : Bool} (hc : c = false) : (s.skipIf c).pc = s.pc + 2 :=
  if_neg (Bool.eq_false_iff.mp hc)

/-- An instruction whose meaning is one skip completes at PC + 4 where its test answers true and at PC + 2 where it
answers false; `skips` and `stays` are the two conditions in the words of the instruction's rule. -/
theorem completes_of_exec_eq_skipIf {i : Instr} {s : State} {c : Bool} {skips stays : Prop}
    (hexec : exec i s = .next (s.skipIf c)) (hskips : skips → c = true) (hstays : stays → c = false) :
    Completes i s (fun t => (skips → t.pc = s.pc + 4) ∧ (stays → t.pc = s.pc + 2) ∧ ChangesOnlyPc s t) :=
  ⟨s.skipIf c, hexec, fun h => skipIf_pc_of_true (hskips h), fun h => skipIf_pc_of_false (hstays h),
    changesOnlyPc_skipIf s c⟩

/-! ### The skips on an immediate (R115, R116) -/

/-- The mask 0xF000 leaves family 3 alone (R86, row 6). -/
theorem encodes_seImm : Encodes 0xF000 0x3000 (fun w => .seImm (fieldX w) (fieldNN w)) := fun w hw => by
  have ht : (fieldT w).toNat = 3 := fieldT_of_and_F000 hw
  simp only [decodeWord, ht]

/-- The mask 0xF000 leaves family 4 alone (R86, row 7). -/
theorem encodes_sneImm : Encodes 0xF000 0x4000 (fun w => .sneImm (fieldX w) (fieldNN w)) := fun w hw => by
  have ht : (fieldT w).toNat = 4 := fieldT_of_and_F000 hw
  simp only [decodeWord, ht]

theorem exec_seImm (x : Reg) (nn : Byte) (s : State) : exec (.seImm x nn) s = .next (s.skipIf (s.getV x == nn)) := rfl

theorem exec_sneImm (x : Reg) (nn : Byte) (s : State) : exec (.sneImm x nn) s = .next (s.skipIf (s.getV x != nn)) := rfl

/-- Settles O17: both are one skip, on the test `VX == NN` and on its negation. -/
theorem skipsOnImmediateFollowTheirCondition : Obligations.SkipsOnImmediateFollowTheirCondition :=
  ⟨encodes_seImm, encodes_sneImm, fun x nn s =>
    ⟨completes_of_exec_eq_skipIf (exec_seImm x nn s) beq_iff_eq.mpr beq_eq_false_iff_ne.mpr,
      completes_of_exec_eq_skipIf (exec_sneImm x nn s) bne_iff_ne.mpr bne_eq_false_iff_eq.mpr⟩⟩

end Sys2Proof.Machine
end

section
/-! Register loads and the arithmetic and logic that sets no flag (R120 to R125): each writes VX and steps PC, so all six
are one statement about `(s.setV x b).advance`, at six values of `b`. -/

namespace Sys2Proof.Machine

open Sys2Proof.Statements

/-! ### Writing one register -/

theorem setsOnly_setV_advance (s : State) (x : Reg) (b : Byte) : SetsOnly s (s.setV x b).advance x b :=
  ⟨s.getV_setV_self x b, fun _ hr => s.getV_setV_of_ne b hr⟩

theorem changesOnlyVAndPc_setV_advance (s : State) (x : Reg) (b : Byte) :
    ChangesOnlyVAndPc s (s.setV x b).advance := ⟨rfl, fun _ => rfl⟩

/-- An instruction whose meaning is one register write and a step of PC completes with that register alone changed. -/
theorem completes_of_exec_eq_setV_advance {i : Instr} {s : State} {x : Reg} {b : Byte}
    (hexec : exec i s = .next (s.setV x b).advance) :
    Completes i s (fun t => SetsOnly s t x b ∧ t.pc = s.pc + 2 ∧ ChangesOnlyVAndPc s t) :=
  ⟨(s.setV x b).advance, hexec, setsOnly_setV_advance s x b, rfl, changesOnlyVAndPc_setV_advance s x b⟩

theorem add8_eq_ofNat_mod (a b : Byte) : add8 a b = BitVec.ofNat 8 ((a.toNat + b.toNat) % 256) :=
  BitVec.eq_of_toNat_eq (by simp [add8])

/-! ### The words of families 6, 7 and 8 -/

/-- The mask 0xF000 leaves family 6 alone (R86, row 9). -/
theorem encodes_ldImm : Encodes 0xF000 0x6000 (fun w => .ldImm (fieldX w) (fieldNN w)) := fun w hw => by
  have ht : (fieldT w).toNat = 6 := fieldT_of_and_F000 hw
  simp only [decodeWord, ht]

/-- The mask 0xF000 leaves family 7 alone (R86, row 10). -/
theorem encodes_addImm : Encodes 0xF000 0x7000 (fun w => .addImm (fieldX w) (fieldNN w)) := fun w hw => by
  have ht : (fieldT w).toNat = 7 := fieldT_of_and_F000 hw
  simp only [decodeWord, ht]

/-- The rows of family 8 (R86, rows 11 to 19): the mask 0xF00F leaves T = 8 and the row's N, and it remains to read off
what `decodeArith` answers for that N. -/
theorem encodes_of_decodeArith {v : Word} {build : Word → Instr} (hv : v.toNat / 4096 = 8)
    (hbuild : ∀ w, (fieldN w).toNat = v.toNat % 16 → decodeArith w = build w) : Encodes 0xF00F v build := fun w hw => by
  obtain ⟨ht, hn⟩ := fields_of_and_F00F hw
  rw [hv] at ht
  rw [← hbuild w hn]
  simp only [decodeWord, ht]

theorem encodes_ldReg : Encodes 0xF00F 0x8000 (fun w => .ldReg (fieldX w) (fieldY w)) :=
  encodes_of_decodeArith rfl fun w (hn : (fieldN w).toNat = 0) => by simp only [decodeArith, hn]

theorem encodes_orReg : Encodes 0xF00F 0x8001 (fun w => .orReg (fieldX w) (fieldY w)) :=
  encodes_of_decodeArith rfl fun w (hn : (fieldN w).toNat = 1) => by simp only [decodeArith, hn]

theorem encodes_andReg : Encodes 0xF00F 0x8002 (fun w => .andReg (fieldX w) (fieldY w)) :=
  encodes_of_decodeArith rfl fun w (hn : (fieldN w).toNat = 2) => by simp only [decodeArith, hn]

theorem encodes_xorReg : Encodes 0xF00F 0x8003 (fun w => .xorReg (fieldX w) (fieldY w)) :=
  encodes_of_decodeArith rfl fun w (hn : (fieldN w).toNat = 3) => by simp only [decodeArith, hn]

/-! ### The six meanings -/

theorem exec_ldImm (x : Reg) (nn : Byte) (s : State) : exec (.ldImm x nn) s = .next (s.setV x nn).advance := rfl

/-- `ADD Vx, nn` writes the sum modulo 256 (R119, R121). -/
theorem exec_addImm (x : Reg) (nn : Byte) (s : State) :
    exec (.addImm x nn) s = .next (s.setV x (BitVec.ofNat 8 (((s.getV x).toNat + nn.toNat) % 256))).advance := by
  rw [← add8_eq_ofNat_mod]; rfl

theorem exec_ldReg (x y : Reg) (s : State) : exec (.ldReg x y) s = .next (s.setV x (s.getV y)).advance := rfl

theorem exec_orReg (x y : Reg) (s : State) : exec (.orReg x y) s = .next (s.setV x (s.getV x ||| s.getV y)).advance :=
  rfl

theorem exec_andReg (x y : Reg) (s : State) : exec (.andReg x y) s = .next (s.setV x (s.getV x &&& s.getV y)).advance :=
  rfl

theorem exec_xorReg (x y : Reg) (s : State) : exec (.xorReg x y) s = .next (s.setV x (s.getV x ^^^ s.getV y)).advance :=
  rfl

/-- Settles O20: each of the six is one register write and a step of PC (`completes_of_exec_eq_setV_advance`). -/
theorem loadsAndLogicWriteOnlyTheDestination : Obligations.LoadsAndLogicWriteOnlyTheDestination :=
  ⟨encodes_ldImm, encodes_addImm, encodes_ldReg, encodes_orReg, encodes_andReg, encodes_xorReg, fun x y nn s =>
    ⟨completes_of_exec_eq_setV_advance (exec_ldImm x nn s),
      completes_of_exec_eq_setV_advance (exec_addImm x nn s),
      completes_of_exec_eq_setV_advance (exec_ldReg x y s),
      completes_of_exec_eq_setV_advance (exec_orReg x y s),
      completes_of_exec_eq_setV_advance (exec_andReg x y s),
      completes_of_exec_eq_setV_advance (exec_xorReg x y s)⟩⟩

end Sys2Proof.Machine
end

section
/-! The index register (R140): the word of family A is a `LD I`, which writes I and steps PC. -/

namespace Sys2Proof.Machine

open Sys2Proof.Statements

/-- An instruction whose meaning is one write of I and a step of PC completes with all but I and PC as it was; `n` is
the value of I in the words of the instruction's rule. -/
theorem completes_of_exec_eq_index_advance {i : Instr} {s : State} {index : Word} {n : Nat}
    (hexec : exec i s = .next { s with i := index }.advance) (hindex : index.toNat = n) :
    Completes i s (fun t => t.i.toNat = n ∧ t.pc = s.pc + 2 ∧ t = { s with i := t.i, pc := t.pc } ∧
      ∀ a, t.mem.read a = s.mem.read a) :=
  ⟨{ s with i := index }.advance, hexec, hindex, rfl, rfl, fun _ => rfl⟩

/-- The mask 0xF000 leaves family A alone (R86, row 21). -/
theorem encodes_ldI : Encodes 0xF000 0xA000 (fun w => .ldI (fieldNNN w)) := fun w hw => by
  have ht : (fieldT w).toNat = 0xA := fieldT_of_and_F000 hw
  simp only [decodeWord, ht]

/-- `LD I` writes NNN widened to the 16 bits of I. -/
theorem exec_ldI (nnn : BitVec 12) (s : State) : exec (.ldI nnn) s = .next { s with i := zext16 nnn }.advance := rfl

/-- Settles O24: `LD I` is one write of I, and widening keeps the value of NNN. -/
theorem loadIndexIsTheLiteral : Obligations.LoadIndexIsTheLiteral :=
  ⟨encodes_ldI, fun nnn s => completes_of_exec_eq_index_advance (exec_ldI nnn s) (zext16_toNat nnn)⟩

end Sys2Proof.Machine
end

section
/-! CLS (R150): the one word of row 1 is `CLS`, which writes every pixel and steps PC. -/

namespace Sys2Proof.Machine

open Sys2Proof.Statements

theorem Framebuffer.getElem_blank (row : Fin 32) (col : Fin 64) : Framebuffer.blank[row][col] = false := by
  simp [Framebuffer.blank]

theorem exec_cls (s : State) : exec .cls s = .next { s with fb := Framebuffer.blank }.advance := rfl

/-- Settles O32: `CLS` replaces the screen by the blank one and steps PC. -/
theorem clearScreenClearsEveryPixel : Obligations.ClearScreenClearsEveryPixel :=
  ⟨rfl, fun s => ⟨{ s with fb := Framebuffer.blank }.advance, exec_cls s, Framebuffer.getElem_blank, rfl, rfl,
    fun _ => rfl⟩⟩

end Sys2Proof.Machine
end

section
/-! Who writes the framebuffer (R154): of the instructions `CLS` and `DRW`, and of the events only a Cycle that performs
one of them, or a Reset. -/

namespace Sys2Proof.Machine

/-! ### Instructions -/

/-- The frame of `CALL`: the stack and PC (R103), or MODE and FAULT when the stack is full (R181). -/
theorem execCall_frame {nnn : BitVec 12} {s t : State} (h : execCall nnn s = .next t) :
    t = { s with stack := t.stack, sp := t.sp, pc := t.pc, mode := t.mode, fault := t.fault } := by
  by_cases hsp : s.sp.val < 16
  · rw [execCall_of_lt nnn s hsp] at h
    cases h; rfl
  · rw [execCall_of_full nnn s (by omega)] at h
    cases h; rfl

/-- The frame of `RETURN`: SP and PC (R100), or MODE and FAULT when the stack is empty (R182). -/
theorem execRet_frame {s t : State} (h : execRet s = .next t) :
    t = { s with sp := t.sp, pc := t.pc, mode := t.mode, fault := t.fault } := by
  by_cases hsp : 0 < s.sp.val
  · rw [execRet_of_pos s hsp] at h
    cases h; rfl
  · rw [execRet_of_empty s (by omega)] at h
    cases h; rfl

/-- The meanings of all other instructions are written over operations that keep the framebuffer. -/
theorem exec_fb_cases {i : Instr} {s t : State} (h : exec i s = .next t) :
    i = .cls ∨ (∃ x y n, i = .drw x y n) ∨ t.fb = s.fb := by
  cases i with
  | cls => exact .inl rfl
  | drw x y n => exact .inr (.inl ⟨x, y, n, rfl⟩)
  | call nnn => exact .inr (.inr (congrArg State.fb (execCall_frame h) :))
  | ret => exact .inr (.inr (congrArg State.fb (execRet_frame h) :))
  | _ => cases h; exact .inr (.inr rfl)

theorem exec_fb_of_not_display {i : Instr} {s t : State} (h : exec i s = .next t) (hcls : i ≠ .cls)
    (hdrw : ∀ x y n, i ≠ .drw x y n) : t.fb = s.fb := by
  obtain hi | ⟨x, y, n, hi⟩ | hfb := exec_fb_cases h
  · exact absurd hi hcls
  · exact absurd hi (hdrw x y n)
  · exact hfb

/-! ### Events -/

@[simp] theorem tick_fb (s : State) : (tick s).fb = s.fb := by
  by_cases hm : s.mode = .halt
  · rw [tick_of_halt s hm]
  · rw [tick_of_live s hm]

/-- All that a SetKey event can do: nothing (R187), a write of KEY (R160), or with it the end of the wait (R164). -/
theorem setKey_cases (k : Key) (p : Bool) (s : State) :
    setKey k p s = s ∨ setKey k p s = s.writeKey k p ∨ setKey k p s = (s.writeKey k p).completeWait k := by
  cases hm : s.mode with
  | run => exact .inr (.inl (setKey_of_run k p s hm))
  | halt => exact .inl (setKey_of_halt k p s hm)
  | wait =>
    by_cases hk : p = false ∨ s.key[k] = true
    · exact .inr (.inl (setKey_of_wait_other k p s hm hk))
    · obtain ⟨rfl, hup⟩ : p = true ∧ s.key[k] = false := by simpa using hk
      exact .inr (.inr (setKey_of_wait_down k s hm hup))

@[simp] theorem setKey_fb (k : Key) (p : Bool) (s : State) : (setKey k p s).fb = s.fb := by
  obtain h | h | h := setKey_cases k p s
  · rw [h]
  · rw [h, State.writeKey_fb]
  · rw [h, State.completeWait_fb, State.writeKey_fb]

/-- The fetch past the end of memory (R183). -/
theorem cycle_of_not_fetchable (s : State) (hm : s.mode = .run) (hpc : 0x0FFE < s.pc.toNat) :
    cycle s = .next (s.raiseFault .fetchOob none) := by
  simp [cycle, hm, fetchable, hpc]

/-- A Cycle that changes the framebuffer performs, in RUN, the `CLS` or `DRW` at PC: outside RUN it does nothing, and a
fault keeps the framebuffer (R185). -/
theorem cycle_changes_fb {s t : State} (h : cycle s = .next t) (hfb : t.fb ≠ s.fb) :
    s.mode = .run ∧
      (decodeWord (fetchWord s.mem s.pc) = .cls ∨ ∃ x y n, decodeWord (fetchWord s.mem s.pc) = .drw x y n) := by
  by_cases hm : s.mode = .run
  · obtain hpc | hpc : s.pc.toNat ≤ 0x0FFE ∨ 0x0FFE < s.pc.toNat := by omega
    · rw [cycle_of_fetchable s hm hpc] at h
      obtain hcls | hdrw | hsame := exec_fb_cases h
      · exact ⟨hm, .inl hcls⟩
      · exact ⟨hm, .inr hdrw⟩
      · exact absurd hsame hfb
    · rw [cycle_of_not_fetchable s hm hpc] at h
      cases h
      exact absurd (s.raiseFault_fb _ _) hfb
  · rw [cycle_of_not_run s hm] at h
    cases h
    exact absurd rfl hfb

/-- The other agents' events, Reset apart, keep the framebuffer. -/
theorem perform_changes_fb {e : Event} {s t : State} (h : perform e s = .next t) (hreset : ∀ rom, e ≠ .reset rom)
    (hfb : t.fb ≠ s.fb) :
    e = .cycle ∧ s.mode = .run ∧
      (decodeWord (fetchWord s.mem s.pc) = .cls ∨ ∃ x y n, decodeWord (fetchWord s.mem s.pc) = .drw x y n) := by
  cases e with
  | cycle => exact ⟨rfl, cycle_changes_fb h hfb⟩
  | tick => cases h; exact absurd (tick_fb s) hfb
  | setKey k p => cases h; exact absurd (setKey_fb k p s) hfb
  | reset rom => exact absurd rfl (hreset rom)

/-- Settles O35: by which instructions write the framebuffer (`exec_fb_cases`), and that a Tick, a SetKey and a fault
keep it. -/
theorem onlyClearAndDrawWriteTheFramebuffer : Obligations.OnlyClearAndDrawWriteTheFramebuffer :=
  ⟨fun _ _ _ => exec_fb_of_not_display, fun _ _ _ => perform_changes_fb⟩

end Sys2Proof.Machine
end

section
/-! A key wait (R165): the core stands still, the timers count, and Reset leaves. What a Tick does is said for every mode
but HALT, since it counts alike in RUN and in WAIT. -/

namespace Sys2Proof.Machine

theorem tick_dt_toNat_of_live (s : State) (h : s.mode ≠ .halt) : (tick s).dt.toNat = s.dt.toNat - 1 := by
  rw [tick_of_live s h, countDown_toNat]

theorem tick_st_toNat_of_live (s : State) (h : s.mode ≠ .halt) : (tick s).st.toNat = s.st.toNat - 1 := by
  rw [tick_of_live s h, countDown_toNat]

/-- The frame of a Tick, in every mode: it writes the two timers at most (R173, R187). -/
theorem tick_frame (s : State) : tick s = { s with dt := (tick s).dt, st := (tick s).st } := by
  by_cases h : s.mode = .halt
  · rw [tick_of_halt s h]
  · rw [tick_of_live s h]

theorem State.resetWith_mode (rom : List Byte) : (State.resetWith rom).mode = .run := rfl

/-- Reset with a ROM that fits starts the core, in whatever mode it was (R200). -/
theorem resetEvent_runs (rom : List Byte) (s : State) (h : rom.length ≤ 3584) :
    ∃ t : State, resetEvent rom s = .next t ∧ t.mode = .run :=
  ⟨_, resetEvent_of_fits rom s h, State.resetWith_mode rom⟩

/-- Settles O40: WAIT is neither RUN, so a Cycle does nothing, nor HALT, so a Tick counts; Reset runs from any mode. -/
theorem waitHoldsTheCoreButNotTheTimers : Obligations.WaitHoldsTheCoreButNotTheTimers := by
  intro s hwait
  have hrun : s.mode ≠ .run := by simp [hwait]
  have hlive : s.mode ≠ .halt := by simp [hwait]
  exact ⟨cycle_of_not_run s hrun, tick_dt_toNat_of_live s hlive, tick_st_toNat_of_live s hlive, tick_frame s,
    fun rom => resetEvent_runs rom s⟩

end Sys2Proof.Machine
end

section
/-! The timers (R170 to R174): `FX07`, `FX15` and `FX18` each move one byte and step PC; any number of Ticks outside
HALT counts a timer down by that number, and the tone is on while ST is above 0. -/

namespace Sys2Proof.Machine

open Sys2Proof.Statements

/-! ### The words of family F -/

/-- The rows of family F (R86, rows 27 to 35): the mask 0xF0FF leaves T = 0xF and the row's NN, and it remains to read
off what `decodeMisc` answers for that NN. -/
theorem encodes_of_decodeMisc {v : Word} {build : Word → Instr} (hv : v.toNat / 4096 = 0xF)
    (hbuild : ∀ w, (fieldNN w).toNat = v.toNat % 256 → decodeMisc w = build w) :
    Encodes 0xF0FF v build := fun w hw => by
  obtain ⟨ht, hnn⟩ := fields_of_and_F0FF hw
  rw [hv] at ht
  rw [← hbuild w hnn]
  simp only [decodeWord, ht]

theorem encodes_ldVxDt : Encodes 0xF0FF 0xF007 (fun w => .ldVxDt (fieldX w)) :=
  encodes_of_decodeMisc rfl fun w (hnn : (fieldNN w).toNat = 0x07) => by simp only [decodeMisc, hnn]

theorem encodes_ldDtVx : Encodes 0xF0FF 0xF015 (fun w => .ldDtVx (fieldX w)) :=
  encodes_of_decodeMisc rfl fun w (hnn : (fieldNN w).toNat = 0x15) => by simp only [decodeMisc, hnn]

theorem encodes_ldStVx : Encodes 0xF0FF 0xF018 (fun w => .ldStVx (fieldX w)) :=
  encodes_of_decodeMisc rfl fun w (hnn : (fieldNN w).toNat = 0x18) => by simp only [decodeMisc, hnn]

/-! ### The three meanings -/

theorem exec_ldVxDt (x : Reg) (s : State) : exec (.ldVxDt x) s = .next (s.setV x s.dt).advance := rfl

theorem exec_ldDtVx (x : Reg) (s : State) : exec (.ldDtVx x) s = .next { s with dt := s.getV x }.advance := rfl

theorem exec_ldStVx (x : Reg) (s : State) : exec (.ldStVx x) s = .next { s with st := s.getV x }.advance := rfl

/-! ### Any number of Ticks (R173) -/

@[simp] theorem tick_mode (s : State) : (tick s).mode = s.mode := (congrArg State.mode (tick_frame s) :)

/-- What each Tick outside HALT counts down by 1, any number `n` of them counts down by `n`, to 0 at the least. -/
theorem ticks_toNat_of_tick {timer : State → Byte}
    (htick : ∀ s : State, s.mode ≠ .halt → (timer (tick s)).toNat = (timer s).toNat - 1) (n : Nat) {s : State}
    (h : s.mode ≠ .halt) : (timer (ticks n s)).toNat = (timer s).toNat - n := by
  induction n generalizing s with
  | zero => rfl
  | succ n ih => rw [ticks, ih (by rwa [tick_mode]), htick s h, Nat.sub_sub, Nat.add_comm 1 n]

theorem ticks_dt_toNat (n : Nat) {s : State} (h : s.mode ≠ .halt) : (ticks n s).dt.toNat = s.dt.toNat - n :=
  ticks_toNat_of_tick tick_dt_toNat_of_live n h

theorem ticks_st_toNat (n : Nat) {s : State} (h : s.mode ≠ .halt) : (ticks n s).st.toNat = s.st.toNat - n :=
  ticks_toNat_of_tick tick_st_toNat_of_live n h

/-! ### The tone (R174) -/

theorem hostView_tone_iff (s : State) : s.hostView.tone = true ↔ s.st ≠ 0 := bne_iff_ne

theorem hostView_tone_ticks_iff (j : Nat) {s : State} (h : s.mode ≠ .halt) :
    (ticks j s).hostView.tone = true ↔ j < s.st.toNat :=
  calc (ticks j s).hostView.tone = true
    _ ↔ (ticks j s).st ≠ 0 := hostView_tone_iff _
    _ ↔ 0 < (ticks j s).st.toNat := BitVec.toNat_inj.not.symm.trans Nat.pos_iff_ne_zero.symm
    _ ↔ j < s.st.toNat := by rw [ticks_st_toNat j h, Nat.sub_pos_iff_lt]

/-- Settles O43: `FX18` keeps MODE and puts VX into ST, which j Ticks leave above 0 exactly when j < VX
(`hostView_tone_ticks_iff`). -/
theorem toneSoundsUntilTheTimerRunsOut : Obligations.ToneSoundsUntilTheTimerRunsOut := by
  refine ⟨hostView_tone_iff, fun x j s t hlive hexec => ?_⟩
  rw [exec_ldStVx] at hexec
  cases hexec
  exact hostView_tone_ticks_iff j hlive

/-- Settles O41: `FX07` is one register write, `FX15` and `FX18` one timer write, each with a step of PC; none writes
MODE, so the Ticks that follow count DT down (`ticks_dt_toNat`). -/
theorem timerInstructionsMoveOneByte : Obligations.TimerInstructionsMoveOneByte :=
  ⟨encodes_ldVxDt, encodes_ldDtVx, encodes_ldStVx, fun x s =>
    ⟨completes_of_exec_eq_setV_advance (exec_ldVxDt x s),
      ⟨_, exec_ldDtVx x s, rfl, rfl, rfl, fun _ => rfl, fun hlive n => ticks_dt_toNat n hlive⟩,
      ⟨_, exec_ldStVx x s, rfl, rfl, rfl, fun _ => rfl⟩⟩⟩

end Sys2Proof.Machine
end

section
/-! The call depth (R181): with 16 entries live a `CALL` is a fault, and each call below that limit makes the stack one
entry deeper and keeps MODE. -/

namespace Sys2Proof.Machine

open Sys2Proof.Statements

theorem exec_call_of_full (nnn : BitVec 12) (s : State) (h : s.sp.val = 16) :
    exec (.call nnn) s = .next (s.raiseFault .stackOverflow (some (encode (.call nnn)))) :=
  execCall_of_full nnn s h

/-- What nesting needs of a call below the depth limit. -/
theorem exec_call_deepens (nnn : BitVec 12) (s : State) (h : s.sp.val < 16) :
    ∃ t : State, exec (.call nnn) s = .next t ∧ t.mode = s.mode ∧ t.sp.val = s.sp.val + 1 :=
  ⟨_, execCall_of_lt nnn s h, rfl, rfl⟩

theorem execAll_cons_of_next {i : Instr} {s t : State} (h : exec i s = .next t) (rest : List Instr) :
    execAll (i :: rest) s = execAll rest t := by
  simp only [execAll, h]

/-- Calls that the stack has room for all complete, each one entry deeper, whatever their addresses. -/
theorem execAll_calls (calls : List (BitVec 12)) (s : State) (hroom : s.sp.val + calls.length ≤ 16) :
    ∃ t : State, execAll (calls.map .call) s = .next t ∧ t.mode = s.mode ∧ t.sp.val = s.sp.val + calls.length := by
  induction calls generalizing s with
  | nil => exact ⟨s, rfl, rfl, rfl⟩
  | cons nnn rest ih =>
    rw [List.length_cons] at hroom
    obtain ⟨u, hcall, humode, husp⟩ := exec_call_deepens nnn s (by omega)
    obtain ⟨t, hrest, htmode, htsp⟩ := ih u (by omega)
    refine ⟨t, ?_, htmode.trans humode, by rw [List.length_cons]; omega⟩
    rw [List.map_cons, execAll_cons_of_next hcall, hrest]

/-- Settles O13: 16 calls from the empty stack fill it (`execAll_calls`), and the next one faults
(`exec_call_of_full`). -/
theorem seventeenthNestedCallOverflows : Obligations.SeventeenthNestedCallOverflows := by
  refine ⟨fun nnn s hfull => ⟨_, exec_call_of_full nnn s hfull, rfl, rfl, rfl⟩, fun calls nnn s hempty hrun hlen => ?_⟩
  obtain ⟨t, hcalls, hmode, hsp⟩ := execAll_calls calls s (by omega)
  have hfull : t.sp.val = 16 := by omega
  exact ⟨t, _, hcalls, hmode.trans hrun, hfull, exec_call_of_full nnn t hfull, rfl, rfl, rfl, rfl, rfl⟩

end Sys2Proof.Machine
end

section
/-! Who raises FETCH_OOB (R183): a Cycle at a PC whose word is not all in memory, before any decode; an instruction
raises one of the two stack faults or none. -/

namespace Sys2Proof.Machine

/-- All that an instruction can do to the fault record: `CALL` on a full stack and `RETURN` on an empty one raise their
fault (R181, R182), and otherwise it is kept. -/
theorem exec_fault_cases {i : Instr} {s t : State} (h : exec i s = .next t) :
    (∃ nnn, i = .call nnn ∧ s.sp.val = 16 ∧ t = s.raiseFault .stackOverflow (some (encode (.call nnn)))) ∨
    (i = .ret ∧ s.sp.val = 0 ∧ t = s.raiseFault .stackUnderflow (some 0x00EE)) ∨
    t.fault = s.fault := by
  cases i with
  | call nnn =>
    obtain hlt | hfull : s.sp.val < 16 ∨ s.sp.val = 16 := by omega
    · cases (execCall_of_lt nnn s hlt).symm.trans h
      exact .inr (.inr rfl)
    · cases (execCall_of_full nnn s hfull).symm.trans h
      exact .inl ⟨nnn, rfl, hfull, rfl⟩
  | ret =>
    obtain hpos | hempty : 0 < s.sp.val ∨ s.sp.val = 0 := by omega
    · cases (execRet_of_pos s hpos).symm.trans h
      exact .inr (.inr rfl)
    · cases (execRet_of_empty s hempty).symm.trans h
      exact .inr (.inl ⟨rfl, hempty, rfl⟩)
  | _ => cases h; exact .inr (.inr rfl)

theorem exec_keeps_fault_ne_fetchOob {i : Instr} {s t : State} (h : exec i s = .next t)
    (hs : s.fault.kind ≠ .fetchOob) : t.fault.kind ≠ .fetchOob := by
  obtain ⟨nnn, -, -, rfl⟩ | ⟨-, -, rfl⟩ | hkeep := exec_fault_cases h
  · simp
  · simp
  · rwa [hkeep]

/-- Settles O8: past 0x0FFE a Cycle is the fetch fault (`cycle_of_not_fetchable`), and up to there it is the instruction
at PC, which raises no FETCH_OOB. -/
theorem fetchPastTheEndOfMemoryHalts : Obligations.FetchPastTheEndOfMemoryHalts := by
  refine fun s hrun => ⟨fun hpast => ⟨_, cycle_of_not_fetchable s hrun (by omega), rfl, rfl, rfl⟩,
    fun hfits t hcycle hkind => ?_⟩
  have hexec : exec (decodeWord (fetchWord s.mem s.pc)) s = .next t := (cycle_of_fetchable s hrun hfits).symm.trans hcycle
  exact exec_keeps_fault_ne_fetchOob hexec hkind

end Sys2Proof.Machine
end

section
/-! The words of the rows of R86 that no instruction above has claimed: per family, what its mask fixes decides the
branch of the dispatch (R85), which reads the operands off the word. -/

namespace Sys2Proof

open Sys2Proof.Statements Sys2Proof.Machine

/-! ### Families fixed by T alone (mask 0xF000) -/

/-- Family 0 beside its two fixed words (R86, row 3; the spec's decision D12). -/
theorem decodeWord_sys {w : Word} (hw : w &&& 0xF000 = 0x0000) (hcls : w ≠ 0x00E0) (hret : w ≠ 0x00EE) :
    decodeWord w = .sys (fieldNNN w) := by
  have ht : (fieldT w).toNat = 0 := fieldT_of_and_F000 hw
  simp only [decodeWord, ht]
  exact (if_neg hcls).trans (if_neg hret)

theorem encodes_call : Encodes 0xF000 0x2000 (fun w => .call (fieldNNN w)) := fun w hw => by
  have ht : (fieldT w).toNat = 2 := fieldT_of_and_F000 hw
  simp only [decodeWord, ht]

theorem encodes_jpV0 : Encodes 0xF000 0xB000 (fun w => .jpV0 (fieldNNN w)) := fun w hw => by
  have ht : (fieldT w).toNat = 0xB := fieldT_of_and_F000 hw
  simp only [decodeWord, ht]

theorem encodes_rnd : Encodes 0xF000 0xC000 (fun w => .rnd (fieldX w) (fieldNN w)) := fun w hw => by
  have ht : (fieldT w).toNat = 0xC := fieldT_of_and_F000 hw
  simp only [decodeWord, ht]

theorem encodes_drw : Encodes 0xF000 0xD000 (fun w => .drw (fieldX w) (fieldY w) (fieldN w)) := fun w hw => by
  have ht : (fieldT w).toNat = 0xD := fieldT_of_and_F000 hw
  simp only [decodeWord, ht]

/-! ### Families 5, 8 and 9: N is fixed too (mask 0xF00F) -/

theorem encodes_seReg : Encodes 0xF00F 0x5000 (fun w => .seReg (fieldX w) (fieldY w)) := fun w hw => by
  obtain ⟨ht, hn⟩ : (fieldT w).toNat = 5 ∧ (fieldN w).toNat = 0 := fields_of_and_F00F hw
  have hn : fieldN w = 0#4 := BitVec.eq_of_toNat_eq hn
  simp only [decodeWord, ht, hn, if_true]

theorem encodes_sneReg : Encodes 0xF00F 0x9000 (fun w => .sneReg (fieldX w) (fieldY w)) := fun w hw => by
  obtain ⟨ht, hn⟩ : (fieldT w).toNat = 9 ∧ (fieldN w).toNat = 0 := fields_of_and_F00F hw
  have hn : fieldN w = 0#4 := BitVec.eq_of_toNat_eq hn
  simp only [decodeWord, ht, hn, if_true]

theorem encodes_addReg : Encodes 0xF00F 0x8004 (fun w => .addReg (fieldX w) (fieldY w)) :=
  encodes_of_decodeArith rfl fun w (hn : (fieldN w).toNat = 4) => by simp only [decodeArith, hn]

theorem encodes_subReg : Encodes 0xF00F 0x8005 (fun w => .subReg (fieldX w) (fieldY w)) :=
  encodes_of_decodeArith rfl fun w (hn : (fieldN w).toNat = 5) => by simp only [decodeArith, hn]

theorem encodes_shr : Encodes 0xF00F 0x8006 (fun w => .shr (fieldX w) (fieldY w)) :=
  encodes_of_decodeArith rfl fun w (hn : (fieldN w).toNat = 6) => by simp only [decodeArith, hn]

theorem encodes_subnReg : Encodes 0xF00F 0x8007 (fun w => .subnReg (fieldX w) (fieldY w)) :=
  encodes_of_decodeArith rfl fun w (hn : (fieldN w).toNat = 7) => by simp only [decodeArith, hn]

theorem encodes_shl : Encodes 0xF00F 0x800E (fun w => .shl (fieldX w) (fieldY w)) :=
  encodes_of_decodeArith rfl fun w (hn : (fieldN w).toNat = 0xE) => by simp only [decodeArith, hn]

/-! ### Families E and F: NN is fixed too (mask 0xF0FF) -/

theorem encodes_skp : Encodes 0xF0FF 0xE09E (fun w => .skp (fieldX w)) := fun w hw => by
  obtain ⟨ht, hnn⟩ : (fieldT w).toNat = 0xE ∧ (fieldNN w).toNat = 0x9E := fields_of_and_F0FF hw
  simp only [decodeWord, decodeKey, ht, hnn]

theorem encodes_sknp : Encodes 0xF0FF 0xE0A1 (fun w => .sknp (fieldX w)) := fun w hw => by
  obtain ⟨ht, hnn⟩ : (fieldT w).toNat = 0xE ∧ (fieldNN w).toNat = 0xA1 := fields_of_and_F0FF hw
  simp only [decodeWord, decodeKey, ht, hnn]

theorem encodes_ldVxK : Encodes 0xF0FF 0xF00A (fun w => .ldVxK (fieldX w)) :=
  encodes_of_decodeMisc rfl fun w (hnn : (fieldNN w).toNat = 0x0A) => by simp only [decodeMisc, hnn]

theorem encodes_addIVx : Encodes 0xF0FF 0xF01E (fun w => .addIVx (fieldX w)) :=
  encodes_of_decodeMisc rfl fun w (hnn : (fieldNN w).toNat = 0x1E) => by simp only [decodeMisc, hnn]

theorem encodes_ldFVx : Encodes 0xF0FF 0xF029 (fun w => .ldFVx (fieldX w)) :=
  encodes_of_decodeMisc rfl fun w (hnn : (fieldNN w).toNat = 0x29) => by simp only [decodeMisc, hnn]

theorem encodes_ldBVx : Encodes 0xF0FF 0xF033 (fun w => .ldBVx (fieldX w)) :=
  encodes_of_decodeMisc rfl fun w (hnn : (fieldNN w).toNat = 0x33) => by simp only [decodeMisc, hnn]

theorem encodes_storeRegs : Encodes 0xF0FF 0xF055 (fun w => .storeRegs (fieldX w)) :=
  encodes_of_decodeMisc rfl fun w (hnn : (fieldNN w).toNat = 0x55) => by simp only [decodeMisc, hnn]

theorem encodes_loadRegs : Encodes 0xF0FF 0xF065 (fun w => .loadRegs (fieldX w)) :=
  encodes_of_decodeMisc rfl fun w (hnn : (fieldNN w).toNat = 0x65) => by simp only [decodeMisc, hnn]

end Sys2Proof
end

section
/-! Decoding a word that an instruction was encoded to (R84): the word matches the instruction's row (`EncodesItsRow`),
that row's mask leads the dispatch to its branch, and the branch reads the operands that the format of R82 put there. -/

namespace Sys2Proof

open Sys2Proof.Statements Sys2Proof.Machine Sys2Proof.Laws

/-! ### The branches without a row of their own -/

theorem decodeWord_unk {w : Word} (h : unrecognised w = true) : decodeWord w = .unk w := by
  obtain ⟨ht | ht, hn⟩ | ⟨ht, hn⟩ | ⟨ht, hnn⟩ | ⟨ht, hnn⟩ := (unrecognised_iff w).mp h
  · have hn : fieldN w ≠ 0#4 := fun h0 => hn (congrArg BitVec.toNat h0)
    simp only [decodeWord, ht]
    exact if_neg hn
  · have hn : fieldN w ≠ 0#4 := fun h0 => hn (congrArg BitVec.toNat h0)
    simp only [decodeWord, ht]
    exact if_neg hn
  · simp only [decodeWord, ht, decodeArith]
    simp only [List.mem_cons, List.not_mem_nil, or_false] at hn
    obtain hn | hn | hn | hn | hn | hn | hn := hn <;> simp only [hn]
  · simp only [decodeWord, ht, decodeKey]
    split <;> simp_all
  · simp only [decodeWord, ht, decodeMisc]
    split <;> simp_all

theorem decode_encode_sys {nnn : BitVec 12} (h : (Instr.sys nnn).wellFormed = true) :
    decodeWord (encode (.sys nnn)) = .sys nnn := by
  simp only [Instr.wellFormed, Bool.and_eq_true, bne_iff_ne] at h
  obtain ⟨hcls, hret⟩ := h
  have hnnn : fieldNNN (encode (.sys nnn)) = nnn := (fields_formatA _ _).2
  have hw0 : encode (.sys nnn) ≠ 0x00E0 := fun e => hcls (hnnn.symm.trans (congrArg fieldNNN e))
  have hwE : encode (.sys nnn) ≠ 0x00EE := fun e => hret (hnnn.symm.trans (congrArg fieldNNN e))
  rw [decodeWord_sys (EncodesItsRow.sys nnn) hw0 hwE, hnnn]

/-! ### The formats of R82: what the branch builds from the fields is the instruction again -/

theorem decode_formatA {t : BitVec 4} {nnn : BitVec 12} {v : Word} {build : BitVec 12 → Instr}
    (hrow : Encodes 0xF000 v (fun w => build (fieldNNN w))) (hw : formatA t nnn &&& 0xF000 = v) :
    decodeWord (formatA t nnn) = build nnn := by
  obtain ⟨-, hnnn⟩ := fields_formatA t nnn
  simp only [hrow _ hw, hnnn]

theorem decode_formatI {t : BitVec 4} {x : Reg} {nn : Byte} {v : Word} {build : Reg → Byte → Instr}
    (hrow : Encodes 0xF000 v (fun w => build (fieldX w) (fieldNN w))) (hw : formatI t x nn &&& 0xF000 = v) :
    decodeWord (formatI t x nn) = build x nn := by
  obtain ⟨-, hx, hnn⟩ := fields_formatI t x nn
  simp only [hrow _ hw, hx, hnn]

theorem decode_formatU {t : BitVec 4} {x : Reg} {nn : Byte} {v : Word} {build : Reg → Instr}
    (hrow : Encodes 0xF0FF v (fun w => build (fieldX w))) (hw : formatI t x nn &&& 0xF0FF = v) :
    decodeWord (formatI t x nn) = build x := by
  obtain ⟨-, hx, -⟩ := fields_formatI t x nn
  simp only [hrow _ hw, hx]

theorem decode_formatR {t : BitVec 4} {x y : Reg} {n : BitVec 4} {v : Word} {build : Reg → Reg → Instr}
    (hrow : Encodes 0xF00F v (fun w => build (fieldX w) (fieldY w))) (hw : formatD t x y n &&& 0xF00F = v) :
    decodeWord (formatD t x y n) = build x y := by
  obtain ⟨-, hx, hy, -⟩ := fields_formatD t x y n
  simp only [hrow _ hw, hx, hy]

theorem decode_formatD {t : BitVec 4} {x y : Reg} {n : BitVec 4} {v : Word} {build : Reg → Reg → BitVec 4 → Instr}
    (hrow : Encodes 0xF000 v (fun w => build (fieldX w) (fieldY w) (fieldN w)))
    (hw : formatD t x y n &&& 0xF000 = v) : decodeWord (formatD t x y n) = build x y n := by
  obtain ⟨-, hx, hy, hn⟩ := fields_formatD t x y n
  simp only [hrow _ hw, hx, hy, hn]

/-- Settles O1: by the instruction's row, in the order of R86. -/
theorem decodeOfEncodeIsTheInstruction : Obligations.DecodeOfEncodeIsTheInstruction := by
  intro i hwf
  cases i with
  | cls => rfl
  | ret => rfl
  | sys nnn => exact decode_encode_sys hwf
  | jp nnn => exact decode_formatA encodes_jp (EncodesItsRow.jp nnn)
  | call nnn => exact decode_formatA encodes_call (EncodesItsRow.call nnn)
  | seImm x nn => exact decode_formatI encodes_seImm (EncodesItsRow.seImm x nn)
  | sneImm x nn => exact decode_formatI encodes_sneImm (EncodesItsRow.sneImm x nn)
  | seReg x y => exact decode_formatR encodes_seReg (EncodesItsRow.seReg x y)
  | ldImm x nn => exact decode_formatI encodes_ldImm (EncodesItsRow.ldImm x nn)
  | addImm x nn => exact decode_formatI encodes_addImm (EncodesItsRow.addImm x nn)
  | ldReg x y => exact decode_formatR encodes_ldReg (EncodesItsRow.ldReg x y)
  | orReg x y => exact decode_formatR encodes_orReg (EncodesItsRow.orReg x y)
  | andReg x y => exact decode_formatR encodes_andReg (EncodesItsRow.andReg x y)
  | xorReg x y => exact decode_formatR encodes_xorReg (EncodesItsRow.xorReg x y)
  | addReg x y => exact decode_formatR encodes_addReg (EncodesItsRow.addReg x y)
  | subReg x y => exact decode_formatR encodes_subReg (EncodesItsRow.subReg x y)
  | shr x y => exact decode_formatR encodes_shr (EncodesItsRow.shr x y)
  | subnReg x y => exact decode_formatR encodes_subnReg (EncodesItsRow.subnReg x y)
  | shl x y => exact decode_formatR encodes_shl (EncodesItsRow.shl x y)
  | sneReg x y => exact decode_formatR encodes_sneReg (EncodesItsRow.sneReg x y)
  | ldI nnn => exact decode_formatA encodes_ldI (EncodesItsRow.ldI nnn)
  | jpV0 nnn => exact decode_formatA encodes_jpV0 (EncodesItsRow.jpV0 nnn)
  | rnd x nn => exact decode_formatI encodes_rnd (EncodesItsRow.rnd x nn)
  | drw x y n => exact decode_formatD encodes_drw (EncodesItsRow.drw x y n)
  | skp x => exact decode_formatU encodes_skp (EncodesItsRow.skp x)
  | sknp x => exact decode_formatU encodes_sknp (EncodesItsRow.sknp x)
  | ldVxDt x => exact decode_formatU encodes_ldVxDt (EncodesItsRow.ldVxDt x)
  | ldVxK x => exact decode_formatU encodes_ldVxK (EncodesItsRow.ldVxK x)
  | ldDtVx x => exact decode_formatU encodes_ldDtVx (EncodesItsRow.ldDtVx x)
  | ldStVx x => exact decode_formatU encodes_ldStVx (EncodesItsRow.ldStVx x)
  | addIVx x => exact decode_formatU encodes_addIVx (EncodesItsRow.addIVx x)
  | ldFVx x => exact decode_formatU encodes_ldFVx (EncodesItsRow.ldFVx x)
  | ldBVx x => exact decode_formatU encodes_ldBVx (EncodesItsRow.ldBVx x)
  | storeRegs x => exact decode_formatU encodes_storeRegs (EncodesItsRow.storeRegs x)
  | loadRegs x => exact decode_formatU encodes_loadRegs (EncodesItsRow.loadRegs x)
  | unk w => exact decodeWord_unk hwf

end Sys2Proof
end

section
/-! The opcode map (R85, R86). Two rows can select one word only if their values agree where both masks look, which 36
rows leave to three kinds of pair; and the first row that selects a word is the branch the dispatch takes. -/

namespace Sys2Proof

open Sys2Proof.Statements Sys2Proof.Machine Sys2Proof.Laws

/-! ### Which rows overlap -/

theorem OpcodeRow.selects_iff (r : OpcodeRow) (w : Word) : r.selects w = true ↔ w &&& r.mask = r.value := beq_iff_eq

theorem opcodeRows_length : opcodeRows.length = 36 := rfl

/-- What two rows ask of the bits that both look at. -/
abbrev OpcodeRow.Compatible (r q : OpcodeRow) : Prop := r.value &&& q.mask = q.value &&& r.mask

theorem OpcodeRow.compatible_of_selects {r q : OpcodeRow} {w : Word} (hr : r.selects w = true)
    (hq : q.selects w = true) : r.Compatible q := by
  rw [OpcodeRow.selects_iff] at hr hq
  rw [OpcodeRow.Compatible, ← hr, ← hq, BitVec.and_assoc, BitVec.and_assoc, BitVec.and_comm r.mask]

/-- The pairs of rows that agree on the bits both look at: any row with the last, and `00E0` and `00EE` with `0NNN`. -/
theorem eq_of_opcodeRows_compatible (k : Fin 36) : ∀ j : Fin 36, j < k →
    opcodeRows[j].Compatible opcodeRows[k] → k = 35 ∨ (k = 2 ∧ (j = 0 ∨ j = 1)) := by
  decide +revert

/-- The masks of `00E0` and `00EE` leave no bit open. -/
theorem OpcodeRow.selects_iff_eq {r : OpcodeRow} (hmask : r.mask = BitVec.allOnes 16) (w : Word) :
    r.selects w = true ↔ w = r.value := by
  rw [OpcodeRow.selects_iff, hmask, BitVec.and_allOnes]

theorem opcodeRows_overlap {j k : Nat} {w : Word} (hjk : j < k) (hk : k < opcodeRows.length)
    (hj : opcodeRows[j].selects w = true) (hsel : opcodeRows[k].selects w = true) :
    k = 35 ∨ (k = 2 ∧ ((j = 0 ∧ w = 0x00E0) ∨ (j = 1 ∧ w = 0x00EE))) := by
  rw [opcodeRows_length] at hk
  obtain h | ⟨h2, h | h⟩ := eq_of_opcodeRows_compatible ⟨k, hk⟩ ⟨j, by omega⟩ hjk
    (OpcodeRow.compatible_of_selects hj hsel)
  · exact .inl (congrArg Fin.val h)
  · obtain rfl : j = 0 := congrArg Fin.val h
    exact .inr ⟨congrArg Fin.val h2, .inl ⟨rfl, (OpcodeRow.selects_iff_eq rfl w).mp hj⟩⟩
  · obtain rfl : j = 1 := congrArg Fin.val h
    exact .inr ⟨congrArg Fin.val h2, .inr ⟨rfl, (OpcodeRow.selects_iff_eq rfl w).mp hj⟩⟩

/-! ### The first row that matches -/

/-- The rows that share no word with a row but the last. -/
def unsharedRows : List OpcodeRow := opcodeRowsFlow.drop 3 ++ opcodeRowsArith ++ opcodeRowsMisc.dropLast

/-- Row 1 of R86. -/
def clsRow : OpcodeRow := ⟨0xFFFF, 0x00E0, fun _ => .cls⟩

/-- Row 2 of R86. -/
def retRow : OpcodeRow := ⟨0xFFFF, 0x00EE, fun _ => .ret⟩

/-- Row 3 of R86, which also selects the words of the two before it. -/
def sysRow : OpcodeRow := ⟨0xF000, 0x0000, fun w => .sys (fieldNNN w)⟩

/-- Row 36 of R86, which selects every word. -/
def unkRow : OpcodeRow := ⟨0x0000, 0x0000, fun w => .unk w⟩

theorem opcodeRows_eq : opcodeRows = clsRow :: retRow :: sysRow :: (unsharedRows ++ [unkRow]) := rfl

theorem encodes_of_mem_unsharedRows : ∀ r ∈ unsharedRows, Encodes r.mask r.value r.build := by
  simp only [unsharedRows, opcodeRowsFlow, opcodeRowsArith, opcodeRowsMisc, List.drop, List.dropLast, List.cons_append,
    List.nil_append, List.forall_mem_cons]
  exact ⟨encodes_jp, encodes_call, encodes_seImm, encodes_sneImm, encodes_seReg, encodes_ldImm, encodes_addImm,
    encodes_ldReg, encodes_orReg, encodes_andReg, encodes_xorReg, encodes_addReg, encodes_subReg, encodes_shr,
    encodes_subnReg, encodes_shl, encodes_sneReg, encodes_ldI, encodes_jpV0, encodes_rnd, encodes_drw, encodes_skp,
    encodes_sknp, encodes_ldVxDt, encodes_ldVxK, encodes_ldDtVx, encodes_ldStVx, encodes_addIVx, encodes_ldFVx,
    encodes_ldBVx, encodes_storeRegs, encodes_loadRegs, nofun⟩

theorem encodesItsRow (i : Instr) : EncodesItsRow.Statement i := by
  open EncodesItsRow in
  exact i.casesOn cls ret sys jp call seImm sneImm seReg ldImm addImm ldReg orReg andReg xorReg addReg subReg shr subnReg
    shl sneReg ldI jpV0 rnd drw skp sknp ldVxDt ldVxK ldDtVx ldStVx addIVx ldFVx ldBVx storeRegs loadRegs unk

/-- What the unshared rows fix: the bits they look at and the values these have. -/
def unsharedPatterns : List (Word × Word) := unsharedRows.map fun r => (r.mask, r.value)

theorem exists_row_of_mem_unsharedPatterns {p : Word × Word} (h : p ∈ unsharedPatterns) :
    ∃ r ∈ unsharedRows, r.mask = p.1 ∧ r.value = p.2 := by
  obtain ⟨r, hr, rfl⟩ := List.mem_map.mp h
  exact ⟨r, hr, rfl, rfl⟩

/-- Every instruction has a row of R86; four have one that overlaps another row before the last, or are UNK. -/
theorem exists_unsharedRow (i : Instr) :
    i = .cls ∨ i = .ret ∨ (∃ nnn, i = .sys nnn) ∨ (∃ w, i = .unk w) ∨
      ∃ r ∈ unsharedRows, r.mask = (rowOf i).1 ∧ r.value = (rowOf i).2 := by
  cases i with
  | cls => exact .inl rfl
  | ret => exact .inr (.inl rfl)
  | sys nnn => exact .inr (.inr (.inl ⟨nnn, rfl⟩))
  | unk w => exact .inr (.inr (.inr (.inl ⟨w, rfl⟩)))
  | _ =>
    refine .inr (.inr (.inr (.inr (exists_row_of_mem_unsharedPatterns ?_))))
    simp only [rowOf]
    decide

/-- A word that no row but the last selects is decoded to UNK, since it matches the row of what it is decoded to. -/
theorem decodeWord_eq_unk_of_no_row {w : Word} (hcls : w ≠ 0x00E0) (hret : w ≠ 0x00EE) (hsys : w &&& 0xF000 ≠ 0)
    (hrows : ∀ r ∈ unsharedRows, r.selects w ≠ true) : decodeWord w = .unk w := by
  obtain ⟨hw, -⟩ := isWordOf_decodeWord w
  have hrow := encodesItsRow (decodeWord w)
  rw [EncodesItsRow.Statement, hw] at hrow
  obtain hi | hi | ⟨nnn, hi⟩ | ⟨w', hi⟩ | ⟨r, hr, hmask, hvalue⟩ := exists_unsharedRow (decodeWord w)
  · exact absurd (by rw [← hw, hi]; rfl) hcls
  · exact absurd (by rw [← hw, hi]; rfl) hret
  · exact absurd (by rw [hi] at hrow; exact hrow) hsys
  · rw [hi] at hw ⊢
    exact congrArg Instr.unk hw
  · exact absurd ((OpcodeRow.selects_iff r w).mpr (by rw [hmask, hvalue]; exact hrow)) (hrows r hr)

theorem decodeByTable_of_find? {w : Word} {r : OpcodeRow} (h : opcodeRows.find? (·.selects w) = some r) :
    decodeByTable w = r.build w := by
  simp only [decodeByTable, h]

/-- Down the rows in order: the three overlapping ones, the unshared ones, and UNK if none of them matches. -/
theorem decodeWord_eq_decodeByTable (w : Word) : decodeWord w = decodeByTable w := by
  by_cases hcls : w = 0x00E0
  · subst hcls; rfl
  by_cases hret : w = 0x00EE
  · subst hret; rfl
  have hcls' : ¬clsRow.selects w = true := fun h => hcls ((OpcodeRow.selects_iff_eq rfl w).mp h)
  have hret' : ¬retRow.selects w = true := fun h => hret ((OpcodeRow.selects_iff_eq rfl w).mp h)
  by_cases hsys : sysRow.selects w = true
  · have hfind : opcodeRows.find? (·.selects w) = some sysRow := by simp [opcodeRows_eq, hcls', hret', hsys]
    rw [decodeByTable_of_find? hfind, decodeWord_sys ((OpcodeRow.selects_iff _ w).mp hsys) hcls hret]
    rfl
  have hunk : unkRow.selects w = true := (OpcodeRow.selects_iff _ w).mpr BitVec.and_zero
  cases hrows : unsharedRows.find? (·.selects w) with
  | some r =>
    have hfind : opcodeRows.find? (·.selects w) = some r := by simp [opcodeRows_eq, hcls', hret', hsys, hrows]
    rw [decodeByTable_of_find? hfind]
    exact encodes_of_mem_unsharedRows r (List.mem_of_find?_eq_some hrows) w
      ((OpcodeRow.selects_iff r w).mp (List.find?_some (p := fun r => OpcodeRow.selects r w) hrows))
  | none =>
    have hfind : opcodeRows.find? (·.selects w) = some unkRow := by
      simp [opcodeRows_eq, hcls', hret', hsys, hrows, hunk]
    rw [decodeByTable_of_find? hfind]
    exact decodeWord_eq_unk_of_no_row hcls hret (fun h => hsys ((OpcodeRow.selects_iff _ w).mpr h))
      (List.find?_eq_none.mp hrows)

/-- Settles O3: the branch of the dispatch is that of the first row (`decodeWord_eq_decodeByTable`), and compatible rows
are found by looking at all pairs. -/
theorem dispatchIsFirstMatchInOpcodeMap : Obligations.DispatchIsFirstMatchInOpcodeMap :=
  ⟨decodeWord_eq_decodeByTable, opcodeRows_length, fun _ _ _ => opcodeRows_overlap⟩

end Sys2Proof
end

section
/-! The words of UNK as R87 lists them, the two instructions that only step PC, and the byte order of the fetch. -/

namespace Sys2Proof

open Sys2Proof.Statements Sys2Proof.Machine

/-! ### The words of UNK (R87) -/

/-- A decoded UNK is well-formed (`isWordOf_decodeWord`), which for UNK is to be on the list. -/
theorem decodeWord_eq_unk_iff (w : Word) : decodeWord w = .unk w ↔ unrecognised w = true := by
  refine ⟨fun h => ?_, decodeWord_unk⟩
  obtain ⟨-, hwf⟩ := isWordOf_decodeWord w
  rwa [h] at hwf

/-- Settles O4: the list of R87 in the fields of the word (`unrecognised_iff`). -/
theorem unrecognisedWordsAreExactlyTheListed : Obligations.UnrecognisedWordsAreExactlyTheListed := by
  intro w
  rw [decodeWord_eq_unk_iff, unrecognised_iff]
  simp only [← BitVec.toNat_inj, ne_eq, List.mem_cons, List.not_mem_nil, or_false, not_or]
  rfl

/-- Settles O5: the decoder computes each. -/
theorem writtenOutWordsDecodeAsTheOpcodeMapSays : Obligations.WrittenOutWordsDecodeAsTheOpcodeMapSays := by
  unfold Obligations.WrittenOutWordsDecodeAsTheOpcodeMapSays
  decide

/-! ### SYS and UNK (R101, R105) -/

theorem changesOnlyPc_advance (s : State) : ChangesOnlyPc s s.advance := ⟨rfl, fun _ => rfl⟩

theorem exec_sys (nnn : BitVec 12) (s : State) : exec (.sys nnn) s = .next s.advance := rfl

theorem exec_unk (w : Word) (s : State) : exec (.unk w) s = .next s.advance := rfl

/-- Settles O9: the words of family 0 and of R87, and both meanings are one step of PC. -/
theorem sysAndUnrecognisedWordsOnlyAdvancePc : Obligations.SysAndUnrecognisedWordsOnlyAdvancePc :=
  ⟨fun _ => decodeWord_sys, fun _ => decodeWord_unk, fun nnn w s =>
    ⟨⟨_, exec_sys nnn s, rfl, changesOnlyPc_advance s⟩, ⟨_, exec_unk w s, rfl, changesOnlyPc_advance s⟩⟩⟩

/-! ### The fetch (R63, R81) -/

theorem fetchWord_toNat (m : Memory) (pc : Word) :
    (fetchWord m pc).toNat = (m.read pc.toNat).toNat * 256 + (m.read (pc.toNat + 1)).toNat := wordOfBytes_toNat _ _

theorem fields_of_wordOfBytes (hi lo : Byte) :
    hi.toNat = (fieldT (wordOfBytes hi lo)).toNat * 16 + (fieldX (wordOfBytes hi lo)).val ∧
      lo = fieldNN (wordOfBytes hi lo) := by
  have := hi.isLt
  have := lo.isLt
  refine ⟨?_, BitVec.eq_of_toNat_eq ?_⟩
  · rw [fieldT_toNat, fieldX_val, wordOfBytes_toNat]
    omega
  · rw [fieldNN_toNat, wordOfBytes_toNat]
    omega

/-- Settles O7: the fetched word is put together from its bytes, and its fields take it apart at the same places. -/
theorem fetchIsBigEndian : Obligations.FetchIsBigEndian :=
  fun m pc => ⟨fetchWord_toNat m pc, fields_of_wordOfBytes _ _⟩

end Sys2Proof
end

section
/-! What an instruction does to MODE, FAULT and PC (R29, R186): `CALL` and `RETURN` are the two that branch on the state,
so each is inverted once; the others are held together by one frame (`exec_frame`). -/

namespace Sys2Proof.Machine

open Sys2Proof.Statements

/-! ### The two stack instructions and all others -/

/-- All that `CALL` can do: push and jump (R103), or STACK_OVERFLOW (R181). -/
theorem exec_call_cases {nnn : BitVec 12} {s t : State} (h : exec (.call nnn) s = .next t) :
    (∃ hs : s.sp.val < 16, t = { s with
      stack := s.stack.set s.sp.val (s.pc + 2) hs
      sp := ⟨s.sp.val + 1, by omega⟩
      pc := zext16 nnn }) ∨
    (s.sp.val = 16 ∧ t = s.raiseFault .stackOverflow (some (encode (.call nnn)))) := by
  obtain hlt | hfull : s.sp.val < 16 ∨ s.sp.val = 16 := by omega
  · cases (execCall_of_lt nnn s hlt).symm.trans h
    exact .inl ⟨hlt, rfl⟩
  · cases (execCall_of_full nnn s hfull).symm.trans h
    exact .inr ⟨hfull, rfl⟩

/-- All that `RETURN` can do: pop into PC (R100), or STACK_UNDERFLOW (R182). -/
theorem exec_ret_cases {s t : State} (h : exec .ret s = .next t) :
    (∃ hs : 0 < s.sp.val, t = { s with sp := ⟨s.sp.val - 1, by omega⟩, pc := s.stack[s.sp.val - 1] }) ∨
    (s.sp.val = 0 ∧ t = s.raiseFault .stackUnderflow (some 0x00EE)) := by
  obtain hpos | hempty : 0 < s.sp.val ∨ s.sp.val = 0 := by omega
  · cases (execRet_of_pos s hpos).symm.trans h
    exact .inl ⟨hpos, rfl⟩
  · cases (execRet_of_empty s hempty).symm.trans h
    exact .inr ⟨hempty, rfl⟩

theorem exec_call_completes (nnn : BitVec 12) (s : State) : ∃ t : State, exec (.call nnn) s = .next t := by
  obtain hlt | hfull : s.sp.val < 16 ∨ s.sp.val = 16 := by omega
  · exact ⟨_, execCall_of_lt nnn s hlt⟩
  · exact ⟨_, execCall_of_full nnn s hfull⟩

theorem exec_ret_completes (s : State) : ∃ t : State, exec .ret s = .next t := by
  obtain hpos | hempty : 0 < s.sp.val ∨ s.sp.val = 0 := by omega
  · exact ⟨_, execRet_of_pos s hpos⟩
  · exact ⟨_, execRet_of_empty s hempty⟩

theorem exec_completes (i : Instr) (s : State) : ∃ t : State, exec i s = .next t := by
  cases i with
  | call nnn => exact exec_call_completes nnn s
  | ret => exact exec_ret_completes s
  | _ => exact ⟨_, rfl⟩

/-- `FX65` writes V and PC (R145); the lemma keeps the sixteen loads folded, which no frame needs to see. -/
theorem exec_loadRegs_cases {x : Reg} {s t : State} (h : exec (.loadRegs x) s = .next t) :
    ∃ v : Vector Byte 16, t = { s with v := v, pc := s.pc + 2 } :=
  ⟨s.loadRange x, (Host.Outcome.next.inj h).symm⟩

/-- What belongs to the stack, the keypad, MODE and FAULT is out of reach of every instruction but three. -/
theorem exec_frame {i : Instr} {s t : State} (h : exec i s = .next t) (hcall : ∀ nnn, i ≠ .call nnn) (hret : i ≠ .ret)
    (hwait : ∀ x, i ≠ .ldVxK x) :
    t = { s with
      v := t.v, i := t.i, pc := t.pc, dt := t.dt, st := t.st, mem := t.mem, fb := t.fb
      draws := t.draws, drawCount := t.drawCount } := by
  cases i with
  | call nnn => exact absurd rfl (hcall nnn)
  | ret => exact absurd rfl hret
  | ldVxK x => exact absurd rfl (hwait x)
  | loadRegs x =>
    obtain ⟨v, rfl⟩ := exec_loadRegs_cases h
    rfl
  | _ => cases h; rfl

/-! ### MODE and FAULT (R186) -/

/-- An instruction raises a stack fault, or it keeps FAULT and at most enters the wait. -/
theorem exec_raises_or_keeps {i : Instr} {s t : State} (h : exec i s = .next t) :
    (∃ nnn, i = .call nnn ∧ s.sp.val = 16 ∧ t = s.raiseFault .stackOverflow (some (encode (.call nnn)))) ∨
    (i = .ret ∧ s.sp.val = 0 ∧ t = s.raiseFault .stackUnderflow (some 0x00EE)) ∨
    (t.fault = s.fault ∧ (t.mode = s.mode ∨ ∃ x, i = .ldVxK x ∧ t = s.enterWait x)) := by
  cases i with
  | ldVxK x => cases h; exact .inr (.inr ⟨rfl, .inr ⟨x, rfl, rfl⟩⟩)
  | call nnn =>
    obtain ⟨-, rfl⟩ | ⟨hfull, ht⟩ := exec_call_cases h
    · exact .inr (.inr ⟨rfl, .inl rfl⟩)
    · exact .inl ⟨nnn, rfl, hfull, ht⟩
  | ret =>
    obtain ⟨-, rfl⟩ | ⟨hempty, ht⟩ := exec_ret_cases h
    · exact .inr (.inr ⟨rfl, .inl rfl⟩)
    · exact .inr (.inl ⟨rfl, hempty, ht⟩)
  | _ =>
    have hframe := exec_frame h nofun nofun nofun
    exact .inr (.inr ⟨(congrArg State.fault hframe :), .inl (congrArg State.mode hframe :)⟩)

/-- Settles O46: every meaning answers a next state (`exec_completes`), which raises a fault or keeps FAULT and at most
enters the wait. -/
theorem everyInstructionCompletesAndOnlyThreeChangeMode :
    Obligations.EveryInstructionCompletesAndOnlyThreeChangeMode := by
  intro i s
  obtain ⟨t, ht⟩ := exec_completes i s
  refine ⟨t, ht, ?_⟩
  obtain ⟨nnn, hi, hfull, rfl⟩ | ⟨hi, hempty, rfl⟩ | ⟨hfault, hmode | ⟨x, hi, rfl⟩⟩ := exec_raises_or_keeps ht
  · exact ⟨.inr (.inr (.inl ⟨rfl, hfull, nnn, hi⟩)), .inr (.inl ⟨hfull, nnn, hi⟩)⟩
  · exact ⟨.inr (.inr (.inr ⟨rfl, hempty, hi⟩)), .inr (.inr ⟨hempty, hi⟩)⟩
  · exact ⟨.inl hmode, .inl hfault⟩
  · exact ⟨.inr (.inl ⟨rfl, x, hi⟩), .inl hfault⟩

/-! ### PC (R29) -/

theorem skipIf_pc_cases (s : State) (c : Bool) : (s.skipIf c).pc = s.pc + 4 ∨ (s.skipIf c).pc = s.pc + 2 := by
  cases c
  · exact .inr (skipIf_pc_of_false rfl)
  · exact .inl (skipIf_pc_of_true rfl)

theorem exec_call_pc {nnn : BitVec 12} {s t : State} (h : exec (.call nnn) s = .next t) :
    (s.sp.val < 16 ∧ t.pc.toNat = nnn.toNat) ∨ (s.sp.val = 16 ∧ t.pc = s.pc ∧ t.mode = .halt) := by
  obtain ⟨hlt, rfl⟩ | ⟨hfull, rfl⟩ := exec_call_cases h
  · exact .inl ⟨hlt, zext16_toNat nnn⟩
  · exact .inr ⟨hfull, rfl, rfl⟩

theorem exec_ret_pc {s t : State} (h : exec .ret s = .next t) :
    (∃ k : Fin 16, k.val + 1 = s.sp.val ∧ t.pc = s.stack[k]) ∨ (s.sp.val = 0 ∧ t.pc = s.pc ∧ t.mode = .halt) := by
  obtain ⟨hpos, rfl⟩ | ⟨hempty, rfl⟩ := exec_ret_cases h
  · exact .inl ⟨⟨s.sp.val - 1, by omega⟩, Nat.sub_add_cancel hpos, rfl⟩
  · exact .inr ⟨hempty, rfl, rfl⟩

/-- Settles O49: by the instruction; all that are neither jumps nor skips nor `FX0A` end in one step of PC. -/
theorem pcChangesOnlyAsItsInstructionSays : Obligations.PcChangesOnlyAsItsInstructionSays := by
  intro i s t h
  cases i with
  | jp nnn => cases h; exact zext16_toNat nnn
  | call nnn => exact exec_call_pc h
  | jpV0 nnn => cases h; exact zext16_add_zextByte_toNat nnn _
  | ret => exact exec_ret_pc h
  | ldVxK x => cases h; rfl
  | seImm x nn | sneImm x nn | seReg x y | sneReg x y | skp x | sknp x => cases h; exact skipIf_pc_cases s _
  | loadRegs x =>
    obtain ⟨v, rfl⟩ := exec_loadRegs_cases h
    rfl
  | _ => cases h; rfl

end Sys2Proof.Machine
end

section
/-! The writers of the V registers, of VF as a flag and of I (R27, R32, R34), instruction by instruction. -/

namespace Sys2Proof.Machine

open Sys2Proof.Statements

/-! ### V registers -/

theorem getV_setVThenFlag_of_ne (s : State) {x r : Reg} (a f : Byte) (hr : r ≠ x) (hf : r ≠ vf) :
    (s.setVThenFlag x a f).getV r = s.getV r := by
  rw [State.getV_setVThenFlag, if_neg hf, if_neg hr]

theorem getV_setVThenFlag_vf (s : State) (x : Reg) (a f : Byte) : (s.setVThenFlag x a f).getV vf = f := by
  rw [State.getV_setVThenFlag, if_pos rfl]

theorem exec_loadRegs (x : Reg) (s : State) : exec (.loadRegs x) s = .next { s with v := s.loadRange x }.advance := rfl

/-- What `FX65` leaves in a register (R145). -/
theorem exec_loadRegs_getV {x : Reg} {s t : State} (h : exec (.loadRegs x) s = .next t) (r : Reg) :
    t.getV r = if r ≤ x then s.mem.read (ea s.i r.val) else s.getV r := by
  rw [← Host.Outcome.next.inj h]
  exact s.loadRange_getElem x r

theorem exec_getV_of_not_mayWriteV {i : Instr} {s t : State} (h : exec i s = .next t) {r : Reg}
    (hr : mayWriteV i r = false) : t.getV r = s.getV r := by
  cases i with
  | ldImm x _ | addImm x _ | ldReg x _ | orReg x _ | andReg x _ | xorReg x _ | rnd x _ | ldVxDt x =>
    cases h
    exact State.getV_setV_of_ne _ _ (beq_eq_false_iff_ne.mp hr)
  | addReg x _ | subReg x _ | shr x _ | subnReg x _ | shl x _ =>
    cases h
    obtain ⟨hx, hf⟩ := Bool.or_eq_false_iff.mp hr
    exact getV_setVThenFlag_of_ne s _ _ (beq_eq_false_iff_ne.mp hx) (beq_eq_false_iff_ne.mp hf)
  | drw _ _ _ | addIVx _ =>
    cases h
    exact State.getV_setV_of_ne _ _ (beq_eq_false_iff_ne.mp hr)
  | loadRegs x => rw [exec_loadRegs_getV h, if_neg (of_decide_eq_false hr)]
  | call nnn =>
    have hv : t.v = s.v := (congrArg State.v (execCall_frame h) :)
    exact congrArg (·[r]) hv
  | ret =>
    have hv : t.v = s.v := (congrArg State.v (execRet_frame h) :)
    exact congrArg (·[r]) hv
  | _ => cases h; rfl

/-! ### I -/

theorem exec_i_cases {i : Instr} {s t : State} (h : exec i s = .next t) :
    t.i = s.i ∨ ((∃ nnn, i = .ldI nnn) ∧ t.i.toNat < 0x1000) ∨ ((∃ x, i = .ldFVx x) ∧ t.i.toNat < 0x100) ∨
      ∃ x, i = .addIVx x := by
  cases i with
  | ldI nnn =>
    cases h
    exact .inr (.inl ⟨⟨nnn, rfl⟩, (zext16_toNat nnn).trans_lt nnn.isLt⟩)
  | ldFVx x =>
    cases h
    refine .inr (.inr (.inl ⟨⟨x, rfl⟩, (fontAddress_toNat _).trans_lt ?_⟩))
    have := (lowNibble (s.getV x)).isLt
    omega
  | addIVx x => exact .inr (.inr (.inr ⟨x, rfl⟩))
  | call nnn => exact .inl (congrArg State.i (execCall_frame h) :)
  | ret => exact .inl (congrArg State.i (execRet_frame h) :)
  | loadRegs x =>
    obtain ⟨v, rfl⟩ := exec_loadRegs_cases h
    exact .inl rfl
  | _ => cases h; exact .inl rfl

/-- Settles O50: the registers by `exec_getV_of_not_mayWriteV`, I by `exec_i_cases`. -/
theorem vAndIChangeOnlyAsDestinations : Obligations.VAndIChangeOnlyAsDestinations :=
  fun _ _ _ h => ⟨fun _ => exec_getV_of_not_mayWriteV h, exec_i_cases h⟩

/-! ### VF as a flag (R32) -/

/-- The seven write a `flagByte` to VF last. -/
theorem exec_flag_of_writesFlag {i : Instr} {s t : State} (h : exec i s = .next t) (hi : writesFlag i = true) :
    ∃ b : Bool, t.getV vf = flagByte b := by
  cases i with
  | addReg x _ | subReg x _ | shr x _ | subnReg x _ | shl x _ =>
    cases h
    exact ⟨_, getV_setVThenFlag_vf s x _ _⟩
  | drw _ _ _ | addIVx _ =>
    cases h
    exact ⟨_, State.getV_setV_self _ vf _⟩
  | _ => exact absurd hi (by simp [writesFlag])

/-- The instructions that the spec names as leaving VF do not have it among their destinations. -/
theorem mayWriteV_vf_of_named {i : Instr} {x y : Reg} {nn : Byte} (hx : x ≠ vf)
    (hi : i = .addImm x nn ∨ i = .orReg x y ∨ i = .andReg x y ∨ i = .xorReg x y ∨ i = .cls ∨ i = .storeRegs x ∨
      i = .loadRegs x) : mayWriteV i vf = false := by
  have hne : (vf == x) = false := beq_eq_false_iff_ne.mpr hx.symm
  have hlt : ¬vf ≤ x := fun hle => hx (le_antisymm (Fin.le_last x) hle)
  obtain rfl | rfl | rfl | rfl | rfl | rfl | rfl := hi
  case inr.inr.inr.inr.inr.inr => exact decide_eq_false hlt
  case inr.inr.inr.inr.inl | inr.inr.inr.inr.inr.inl => rfl
  all_goals exact hne

/-- Settles O51: the seven by `exec_flag_of_writesFlag`; the rest is that VF is a V register, written only as a
destination (`exec_getV_of_not_mayWriteV`). -/
theorem onlySevenInstructionsWriteTheFlag : Obligations.OnlySevenInstructionsWriteTheFlag := by
  intro i s t h
  refine ⟨fun hi => ?_, fun x y nn hx hi => ?_, fun _ => ?_⟩
  · obtain ⟨b, hb⟩ := exec_flag_of_writesFlag h hi
    exact hb ▸ flagByte_cases b
  · exact exec_getV_of_not_mayWriteV h (mayWriteV_vf_of_named hx hi)
  · cases hw : mayWriteV i 15 with
    | false => exact .inl (exec_getV_of_not_mayWriteV h hw)
    | true => exact .inr rfl

end Sys2Proof.Machine
end

section
/-! Who reads and writes the timers (R37, R173): three instructions and the Tick; what uses no timer carries any two
timer values through unchanged, so it commutes with a Tick (R212, R213). -/

namespace Sys2Proof.Machine

open Sys2Proof.Statements

/-- The state with other timers. -/
def State.withTimers (s : State) (dt st : Byte) : State := { s with dt := dt, st := st }

/-! ### Instructions -/

theorem exec_dt {i : Instr} {s t : State} (h : exec i s = .next t) (hi : ∀ x, i ≠ .ldDtVx x) : t.dt = s.dt := by
  cases i with
  | ldDtVx x => exact absurd rfl (hi x)
  | call nnn => exact (congrArg State.dt (execCall_frame h) :)
  | ret => exact (congrArg State.dt (execRet_frame h) :)
  | loadRegs x =>
    obtain ⟨v, rfl⟩ := exec_loadRegs_cases h
    rfl
  | _ => cases h; rfl

theorem exec_st {i : Instr} {s t : State} (h : exec i s = .next t) (hi : ∀ x, i ≠ .ldStVx x) : t.st = s.st := by
  cases i with
  | ldStVx x => exact absurd rfl (hi x)
  | call nnn => exact (congrArg State.st (execCall_frame h) :)
  | ret => exact (congrArg State.st (execRet_frame h) :)
  | loadRegs x =>
    obtain ⟨v, rfl⟩ := exec_loadRegs_cases h
    rfl
  | _ => cases h; rfl

theorem exec_withTimers {i : Instr} {s t : State} (h : exec i s = .next t) (hi : usesTimers i = false) (dt st : Byte) :
    exec i (s.withTimers dt st) = .next (t.withTimers dt st) := by
  cases i with
  | ldVxDt x | ldDtVx x | ldStVx x => exact absurd hi (by simp [usesTimers])
  | call nnn =>
    obtain ⟨hlt, rfl⟩ | ⟨hfull, rfl⟩ := exec_call_cases h
    · exact execCall_of_lt nnn (s.withTimers dt st) hlt
    · exact execCall_of_full nnn (s.withTimers dt st) hfull
  | ret =>
    obtain ⟨hpos, rfl⟩ | ⟨hempty, rfl⟩ := exec_ret_cases h
    · exact execRet_of_pos (s.withTimers dt st) hpos
    · exact execRet_of_empty (s.withTimers dt st) hempty
  | loadRegs x =>
    rw [← Host.Outcome.next.inj h]
    exact exec_loadRegs x (s.withTimers dt st)
  | _ => cases h; rfl

/-- Another value of ST goes through every instruction untouched, or `FX18` replaces it. -/
theorem exec_ignores_st (i : Instr) (s : State) (b : Byte) :
    ∃ t u : State, exec i s = .next t ∧ exec i { s with st := b } = .next u ∧ u = { t with st := u.st } ∧
      ((∃ x, i = .ldStVx x) ∨ u.st = b) := by
  cases hi : usesTimers i with
  | false =>
    obtain ⟨t, ht⟩ := exec_completes i s
    have hdt : t.dt = s.dt := exec_dt ht fun x hx => by simp [hx, usesTimers] at hi
    refine ⟨t, t.withTimers s.dt b, ht, exec_withTimers ht hi s.dt b, ?_, .inr rfl⟩
    rw [State.withTimers, ← hdt]
  | true =>
    cases i with
    | ldVxDt x => exact ⟨_, _, exec_ldVxDt x s, exec_ldVxDt x { s with st := b }, rfl, .inr rfl⟩
    | ldDtVx x => exact ⟨_, _, exec_ldDtVx x s, exec_ldDtVx x { s with st := b }, rfl, .inr rfl⟩
    | ldStVx x => exact ⟨_, _, exec_ldStVx x s, exec_ldStVx x { s with st := b }, rfl, .inl ⟨x, rfl⟩⟩
    | _ => exact absurd hi (by simp [usesTimers])

/-- Settles O44: the writers by `exec_dt` and `exec_st`, and ST has no reader (`exec_ignores_st`). -/
theorem soundTimerIsReadByNoInstruction : Obligations.SoundTimerIsReadByNoInstruction :=
  ⟨fun _ _ _ h => ⟨exec_dt h, exec_st h⟩, exec_ignores_st⟩

/-! ### The Tick (R173) -/

theorem tick_eq_withTimers (s : State) (h : s.mode ≠ .halt) :
    tick s = s.withTimers (countDown s.dt) (countDown s.st) := tick_of_live s h

/-- Settles O45: a Tick is a change of the two timers, which an instruction that uses neither carries through
(`exec_withTimers`). -/
theorem ticksCommuteWithTimerlessInstructions : Obligations.TicksCommuteWithTimerlessInstructions := by
  intro i s t hi hrun h hlive
  have hdt : t.dt = s.dt := exec_dt h fun x hx => by simp [hx, usesTimers] at hi
  have hst : t.st = s.st := exec_st h fun x hx => by simp [hx, usesTimers] at hi
  rw [tick_eq_withTimers t hlive, tick_eq_withTimers s (by simp [hrun]), hdt, hst]
  exact exec_withTimers h hi _ _

theorem tick_dt_of_zero {s : State} (h : s.mode ≠ .halt) (h0 : s.dt = 0) : (tick s).dt = 0 :=
  BitVec.eq_of_toNat_eq (by rw [tick_dt_toNat_of_live s h, h0]; rfl)

theorem tick_st_of_zero {s : State} (h : s.mode ≠ .halt) (h0 : s.st = 0) : (tick s).st = 0 :=
  BitVec.eq_of_toNat_eq (by rw [tick_st_toNat_of_live s h, h0]; rfl)

/-- Settles O42: each timer goes down by 1 as a number that stays at 0 (`tick_dt_toNat_of_live`,
`tick_st_toNat_of_live`). -/
theorem tickCountsTheTimersDown : Obligations.TickCountsTheTimersDown := by
  refine fun s => ⟨fun hlive => ⟨fun hpos => ?_, tick_dt_of_zero hlive, fun hpos => ?_, tick_st_of_zero hlive,
    tick_frame s⟩, tick_of_halt s⟩
  · rw [tick_dt_toNat_of_live s hlive]
    omega
  · rw [tick_st_toNat_of_live s hlive]
    omega

end Sys2Proof.Machine
end

section
/-! The keypad (R160 to R165): KEY has one writer, the SetKey event; `FX0A` waits for it through Cycles and Ticks, and the
first key that goes down completes the wait. -/

namespace Sys2Proof.Machine

open Sys2Proof.Statements

/-! ### No instruction writes KEY -/

theorem exec_key {i : Instr} {s t : State} (h : exec i s = .next t) : t.key = s.key := by
  cases i with
  | call nnn => exact (congrArg State.key (execCall_frame h) :)
  | ret => exact (congrArg State.key (execRet_frame h) :)
  | ldVxK x => cases h; rfl
  | _ => exact (congrArg State.key (exec_frame h nofun nofun nofun) :)

/-! ### The SetKey event -/

/-- Outside HALT every SetKey event writes its key, the one that completes a wait too. -/
theorem setKey_key_of_live (k : Key) (p : Bool) {s : State} (h : s.mode ≠ .halt) :
    (setKey k p s).key = s.key.set k p := by
  cases hm : s.mode with
  | run => rw [setKey_of_run k p s hm, State.writeKey_key]
  | halt => exact absurd hm h
  | wait =>
    by_cases hk : p = false ∨ s.key[k] = true
    · rw [setKey_of_wait_other k p s hm hk, State.writeKey_key]
    · obtain ⟨rfl, hup⟩ : p = true ∧ s.key[k] = false := by simpa using hk
      rw [setKey_of_wait_down k s hm hup, State.completeWait_key, State.writeKey_key]

theorem setKey_getElem_self (k : Key) (p : Bool) {s : State} (h : s.mode ≠ .halt) : (setKey k p s).key[k] = p := by
  rw [setKey_key_of_live k p h, getElem_set_key, if_pos rfl]

theorem setKey_getElem_of_ne {k j : Key} (p : Bool) {s : State} (h : s.mode ≠ .halt) (hj : j ≠ k) :
    (setKey k p s).key[j] = s.key[j] := by
  rw [setKey_key_of_live k p h, getElem_set_key, if_neg hj]

theorem writeKey_of_same {k : Key} {p : Bool} {s : State} (h : s.key[k] = p) : s.writeKey k p = s := by
  have hkey : s.key.set k p = s.key := by rw [← h]; exact Vector.set_getElem_self k.isLt
  rw [State.writeKey, hkey]

/-- Settles O39: in RUN a SetKey is a write of KEY, in HALT it is nothing, and no instruction writes KEY (`exec_key`). -/
theorem onlySetKeyWritesTheKeypad : Obligations.OnlySetKeyWritesTheKeypad := by
  refine ⟨fun k p s hrun => ?_, setKey_of_halt, fun _ _ _ => exec_key⟩
  have hlive : s.mode ≠ .halt := by simp [hrun]
  refine ⟨setKey_getElem_self k p hlive, fun _ => setKey_getElem_of_ne p hlive, ?_, fun hsame => ?_⟩
  · rw [setKey_of_run k p s hrun]
    rfl
  · rw [setKey_of_run k p s hrun, writeKey_of_same hsame]

/-! ### The wait (R163, R164) -/

theorem exec_ldVxK (x : Reg) (s : State) : exec (.ldVxK x) s = .next (s.enterWait x) := rfl

/-- Settles O36: `FX0A` is the entry into the wait. -/
theorem keyWaitIsEntered : Obligations.KeyWaitIsEntered :=
  ⟨encodes_ldVxK, fun x s => ⟨s.enterWait x, exec_ldVxK x s, rfl, rfl, rfl, fun _ => rfl⟩⟩

theorem setsOnly_completeWait (s : State) (k : Key) : SetsOnly s (s.completeWait k) s.waitx (BitVec.ofNat 8 k.val) :=
  setsOnly_setV_advance s s.waitx _

/-- Settles O37: of the SetKey events in WAIT, `setKey_of_wait_down` completes the wait and `setKey_of_wait_other` only
writes KEY. -/
theorem keyDownCompletesTheWait : Obligations.KeyDownCompletesTheWait := by
  intro k p s hwait
  have hlive : s.mode ≠ .halt := by simp [hwait]
  refine ⟨setKey_getElem_self k p hlive, fun _ => setKey_getElem_of_ne p hlive, fun hp hup => ?_, fun hother => ?_⟩
  · subst hp
    rw [setKey_of_wait_down k s hwait hup]
    exact ⟨setsOnly_completeWait (s.writeKey k true) k, rfl, rfl, rfl⟩
  · rw [setKey_of_wait_other k p s hwait hother]
    rfl

/-! ### A wait with Ticks before its key (R165) -/

theorem withTimers_tick (s : State) (dt st : Byte) : (tick s).withTimers dt st = s.withTimers dt st := by
  rw [tick_frame s]
  rfl

/-- Any number of Ticks write the two timers at most. -/
theorem ticks_frame (n : Nat) (s : State) : ticks n s = s.withTimers (ticks n s).dt (ticks n s).st := by
  induction n generalizing s with
  | zero => rfl
  | succ n ih => exact (ih (tick s)).trans (withTimers_tick s _ _)

/-- Settles O38: the Ticks leave the state that `FX0A` entered but for the timers (`ticks_frame`), so a Cycle finds WAIT,
and the key-down the same WAITX, V and PC. -/
theorem keyWaitOutlastsCyclesAndTicks : Obligations.KeyWaitOutlastsCyclesAndTicks := by
  intro x k n s t hrun hexec hup
  rw [exec_ldVxK] at hexec
  cases hexec
  have hdt : (ticks n (s.enterWait x)).dt.toNat = s.dt.toNat - n := ticks_dt_toNat n (by simp)
  rw [ticks_frame n (s.enterWait x)]
  generalize (ticks n (s.enterWait x)).dt = dt at hdt ⊢
  generalize (ticks n (s.enterWait x)).st = st
  have hwait : ((s.enterWait x).withTimers dt st).mode = .wait := rfl
  rw [setKey_of_wait_down k _ hwait hup]
  exact ⟨cycle_of_not_run ((s.enterWait x).withTimers dt st) (by simp [hwait]), setsOnly_completeWait _ k, rfl,
    rfl, hdt⟩

end Sys2Proof.Machine
end

section
/-! The invariant of reachable states (R48, R36, R39) and the agreement of the fault report with the state (R185): both
hold after reset, and every event keeps them. -/

namespace Sys2Proof.Machine

open Sys2Proof.Statements

/-! ### After reset -/

/-- The state a Reset leaves, with the inputs still to come (R200, log 20). -/
theorem resetEvent_cases {rom : List Byte} {s t : State} (h : resetEvent rom s = .next t) :
    rom.length ≤ 3584 ∧
      t = { State.resetWith rom with schedule := s.schedule, draws := s.draws, drawCount := s.drawCount } := by
  obtain hfit | hbig : rom.length ≤ 3584 ∨ 3584 < rom.length := by omega
  · exact ⟨hfit, (Host.Outcome.next.inj ((resetEvent_of_fits rom s hfit).symm.trans h)).symm⟩
  · exact absurd ((resetEvent_of_too_large rom s hbig).symm.trans h) nofun

namespace State

/-- The invariant speaks of none of the inputs to come. -/
theorem Inv.withInputs {s : State} (h : s.Inv) (schedule : List Event) (draws : List Byte) (drawCount : Nat) :
    { s with schedule := schedule, draws := draws, drawCount := drawCount }.Inv :=
  ⟨h.mem_canonical, h.pc_bound, h.live_entries, h.halt_iff_fault, h.waiting_at⟩

theorem FaultReported.withInputs {s : State} (h : s.FaultReported) (schedule : List Event) (draws : List Byte)
    (drawCount : Nat) : { s with schedule := schedule, draws := draws, drawCount := drawCount }.FaultReported :=
  ⟨h.report⟩

/-- Only HALT has a report to make. -/
theorem FaultReported.of_live {s : State} (h : s.mode ≠ .halt) : s.FaultReported := ⟨fun hm => absurd hm h⟩

theorem resetWith_pc (rom : List Byte) : (State.resetWith rom).pc = 0x0200 := rfl

theorem resetWith_inv {rom : List Byte} (h : rom.length ≤ 3584) : (State.resetWith rom).Inv where
  mem_canonical := Memory.wf_ofRom rom h
  pc_bound := by rw [resetWith_pc]; decide
  live_entries := fun k hk => absurd hk (Nat.not_lt_zero k.val)
  halt_iff_fault := by simp [State.resetWith, State.reset]
  waiting_at := nofun

theorem resetWith_faultReported (rom : List Byte) : (State.resetWith rom).FaultReported := .of_live nofun

end State

/-- The reset with an empty ROM is the reset state of the machine (log 18). -/
theorem resetWith_nil : State.resetWith [] = State.reset := rfl

/-- Settles O58: Reset(rom) with a ROM that fits, of which the reset state is the one with an empty ROM. -/
theorem invariantsHoldAfterReset : Obligations.InvariantsHoldAfterReset := by
  refine ⟨resetWith_nil ▸ ⟨State.resetWith_inv (by decide), State.resetWith_faultReported []⟩, fun rom s t h => ?_⟩
  obtain ⟨hfit, rfl⟩ := resetEvent_cases h
  exact ⟨(State.resetWith_inv hfit).withInputs _ _ _, (State.resetWith_faultReported rom).withInputs _ _ _⟩

/-! ### What an instruction does to memory, PC and the stack, as far as the invariant asks -/

theorem exec_mem_canonical {i : Instr} {s t : State} (h : exec i s = .next t) (hs : s.mem.wf = true) :
    t.mem.wf = true := by
  obtain ⟨x, -, hmem⟩ | ⟨x, -, hmem⟩ | hmem := exec_mem_cases h
  · rw [hmem]; exact Memory.wf_storeFrom _ _ _ hs
  · rw [hmem]; exact Memory.wf_storeFrom _ _ _ hs
  · rwa [hmem]

/-- Where PC can go, over all instructions (R29): a target, a popped entry, or not more than 4 on. -/
theorem exec_pc_cases {i : Instr} {s t : State} (h : exec i s = .next t) :
    t.pc.toNat ≤ 0x10FE ∨ (∃ k : Fin 16, k.val + 1 = s.sp.val ∧ t.pc = s.stack[k]) ∨
      t.pc = s.pc ∨ t.pc = s.pc + 2 ∨ t.pc = s.pc + 4 := by
  have hpc := pcChangesOnlyAsItsInstructionSays i s t h
  cases i with
  | jp nnn =>
    have hpc : t.pc.toNat = nnn.toNat := hpc
    exact .inl (by omega)
  | jpV0 nnn =>
    have hpc : t.pc.toNat = nnn.toNat + (s.getV 0).toNat := hpc
    exact .inl (by omega)
  | call nnn =>
    obtain ⟨-, hpc⟩ | ⟨-, hpc, -⟩ := hpc
    · exact .inl (by omega)
    · exact .inr (.inr (.inl hpc))
  | ret =>
    obtain hpop | ⟨-, hpc, -⟩ := hpc
    · exact .inr (.inl hpop)
    · exact .inr (.inr (.inl hpc))
  | ldVxK x => exact .inr (.inr (.inl hpc))
  | seImm x nn | sneImm x nn | seReg x y | sneReg x y | skp x | sknp x =>
    obtain hpc | hpc : t.pc = s.pc + 4 ∨ t.pc = s.pc + 2 := hpc
    · exact .inr (.inr (.inr (.inr hpc)))
    · exact .inr (.inr (.inr (.inl hpc)))
  | _ => exact .inr (.inr (.inr (.inl hpc)))

/-- What can become of the stack (R35): pushed on by `CALL`, or its slots kept and at most as many of them live. -/
theorem exec_stack_cases {i : Instr} {s t : State} (h : exec i s = .next t) :
    (∃ hs : s.sp.val < 16, t.stack = s.stack.set s.sp.val (s.pc + 2) hs ∧ t.sp.val = s.sp.val + 1) ∨
    (t.stack = s.stack ∧ t.sp.val ≤ s.sp.val) := by
  cases i with
  | call nnn =>
    obtain ⟨hlt, rfl⟩ | ⟨-, rfl⟩ := exec_call_cases h
    · exact .inl ⟨hlt, rfl, rfl⟩
    · exact .inr ⟨rfl, Nat.le_refl _⟩
  | ret =>
    obtain ⟨-, rfl⟩ | ⟨-, rfl⟩ := exec_ret_cases h
    · exact .inr ⟨rfl, Nat.sub_le _ _⟩
    · exact .inr ⟨rfl, Nat.le_refl _⟩
  | ldVxK x => cases h; exact .inr ⟨rfl, Nat.le_refl _⟩
  | _ =>
    have hframe := exec_frame h nofun nofun nofun
    exact .inr ⟨(congrArg State.stack hframe :), (congrArg (·.sp.val) hframe :).le⟩

/-- Two or four bytes past an instruction that could be fetched, PC has not wrapped (R31). -/
theorem toNat_add_of_fetchable {pc d : Word} (hpc : pc.toNat ≤ 0x0FFE) (hd : d.toNat ≤ 4) :
    (pc + d).toNat = pc.toNat + d.toNat := by
  rw [BitVec.toNat_add]
  omega

namespace State.Inv

theorem exec_pc_bound {i : Instr} {s t : State} (hs : s.Inv) (hpc : s.pc.toNat ≤ 0x0FFE) (h : exec i s = .next t) :
    t.pc.toNat ≤ 0x10FE := by
  obtain hle | ⟨k, hk, hpop⟩ | hpc' | hpc' | hpc' := exec_pc_cases h
  · exact hle
  · have := hs.live_entries k (by omega)
    rw [hpop]
    omega
  · rw [hpc']; omega
  · rw [hpc', toNat_add_of_fetchable hpc (by decide)]
    exact (Nat.add_le_add_right hpc _).trans (by decide)
  · rw [hpc', toNat_add_of_fetchable hpc (by decide)]
    exact (Nat.add_le_add_right hpc _).trans (by decide)

/-- The one entry that a step can add is PC + 2 of a `CALL` that was fetched. -/
theorem exec_live_entries {i : Instr} {s t : State} (hs : s.Inv) (hpc : s.pc.toNat ≤ 0x0FFE)
    (h : exec i s = .next t) (k : Fin 16) (hk : k.val < t.sp.val) :
    0x0002 ≤ t.stack[k].toNat ∧ t.stack[k].toNat ≤ 0x1000 := by
  obtain ⟨hlt, hstack, hsp⟩ | ⟨hstack, hsp⟩ := exec_stack_cases h
  · by_cases hnew : s.sp.val = k.val
    · have hra : t.stack[k] = s.pc + 2 := by simp [hstack, hnew]
      have hval : (s.pc + 2).toNat = s.pc.toNat + 2 := toNat_add_of_fetchable hpc (by decide)
      rw [hra, hval]
      omega
    · have hold : t.stack[k] = s.stack[k] := by simp [hstack, Vector.getElem_set_ne, hnew]
      rw [hold]
      exact hs.live_entries k (by omega)
  · rw [hstack]
    exact hs.live_entries k (by omega)

/-- The instruction fetched at PC keeps the invariant; that it stands at PC is what an entered wait records. -/
theorem exec {s t : State} (hs : s.Inv) (hrun : s.mode = .run) (hpc : s.pc.toNat ≤ 0x0FFE)
    (h : exec (decodeWord (fetchWord s.mem s.pc)) s = .next t) : t.Inv := by
  have hnofault : s.fault.kind = .none := by
    by_contra hk
    exact absurd (hrun.symm.trans (hs.halt_iff_fault.mpr hk)) nofun
  have hmode : (t.mode = .halt ↔ t.fault.kind ≠ .none) ∧
      (t.mode = .wait → t.pc.toNat ≤ 0x0FFE ∧ decodeWord (fetchWord t.mem t.pc) = .ldVxK t.waitx) := by
    obtain ⟨nnn, -, -, rfl⟩ | ⟨-, -, rfl⟩ | ⟨hfault, hmode | ⟨x, hi, rfl⟩⟩ := exec_raises_or_keeps h
    · exact ⟨by simp, nofun⟩
    · exact ⟨by simp, nofun⟩
    · simp [hmode, hfault, hrun, hnofault]
    · exact ⟨by simp [hnofault], fun _ => ⟨hpc, hi⟩⟩
  exact ⟨exec_mem_canonical h hs.mem_canonical, hs.exec_pc_bound hpc h, hs.exec_live_entries hpc h, hmode.1, hmode.2⟩

/-! ### The events -/

theorem raiseFault {s : State} (hs : s.Inv) {kind : FaultKind} (hkind : kind ≠ .none) (op : Option Word) :
    (s.raiseFault kind op).Inv :=
  ⟨hs.mem_canonical, hs.pc_bound, hs.live_entries, by simp [hkind], nofun⟩

theorem cycle {s t : State} (hs : s.Inv) (h : cycle s = .next t) : t.Inv := by
  by_cases hrun : s.mode = .run
  · obtain hpc | hpc : s.pc.toNat ≤ 0x0FFE ∨ 0x0FFE < s.pc.toNat := by omega
    · exact hs.exec hrun hpc ((cycle_of_fetchable s hrun hpc).symm.trans h)
    · cases (cycle_of_not_fetchable s hrun hpc).symm.trans h
      exact hs.raiseFault (kind := .fetchOob) nofun none
  · cases (cycle_of_not_run s hrun).symm.trans h
    exact hs

theorem tick {s : State} (hs : s.Inv) : (tick s).Inv := by
  rw [tick_frame s]
  exact ⟨hs.mem_canonical, hs.pc_bound, hs.live_entries, hs.halt_iff_fault, hs.waiting_at⟩

theorem writeKey {s : State} (hs : s.Inv) (k : Key) (p : Bool) : (s.writeKey k p).Inv :=
  ⟨hs.mem_canonical, hs.pc_bound, hs.live_entries, hs.halt_iff_fault, hs.waiting_at⟩

/-- The completed wait leaves PC two past an `FX0A` that was fetched (R164). -/
theorem completeWait {s : State} (hs : s.Inv) (hwait : s.mode = .wait) (k : Key) : (s.completeWait k).Inv := by
  obtain ⟨hpc, -⟩ := hs.waiting_at hwait
  have hnofault : s.fault.kind = .none := by
    by_contra hk
    exact absurd (hwait.symm.trans (hs.halt_iff_fault.mpr hk)) nofun
  have hval : (s.pc + 2).toNat = s.pc.toNat + 2 := toNat_add_of_fetchable hpc (by decide)
  refine ⟨hs.mem_canonical, ?_, hs.live_entries, by simp [hnofault], nofun⟩
  rw [State.completeWait_pc, hval]
  omega

theorem setKey {s : State} (hs : s.Inv) (k : Key) (p : Bool) : (setKey k p s).Inv := by
  cases hm : s.mode with
  | run => rw [setKey_of_run k p s hm]; exact hs.writeKey k p
  | halt => rw [setKey_of_halt k p s hm]; exact hs
  | wait =>
    by_cases hk : p = false ∨ s.key[k] = true
    · rw [setKey_of_wait_other k p s hm hk]
      exact hs.writeKey k p
    · obtain ⟨rfl, hup⟩ : p = true ∧ s.key[k] = false := by simpa using hk
      rw [setKey_of_wait_down k s hm hup]
      exact (hs.writeKey k true).completeWait hm k

theorem perform {e : Event} {s t : State} (hs : s.Inv) (h : perform e s = .next t) : t.Inv := by
  cases e with
  | cycle => exact hs.cycle h
  | tick => cases h; exact hs.tick
  | setKey k p => cases h; exact hs.setKey k p
  | reset rom => exact (invariantsHoldAfterReset.2 rom s t h).1

end State.Inv

/-- A step is an event performed on the state with what is left of the schedule (log 1). -/
theorem step_eq_perform (s : State) :
    ∃ (e : Event) (rest : List Event), step s = perform e { s with schedule := rest } := by
  cases h : s.schedule with
  | nil => exact ⟨.cycle, s.schedule, step_of_schedule_nil s h⟩
  | cons e rest => exact ⟨e, rest, step_of_schedule_cons s e rest h⟩

/-- Settles O59: taking an event off the schedule and performing it (`State.Inv.perform`) both keep the invariant. -/
theorem everyStepKeepsTheInvariant : Obligations.EveryStepKeepsTheInvariant := by
  intro s t hs h
  obtain ⟨e, rest, hstep⟩ := step_eq_perform s
  exact (hs.withInputs rest s.draws s.drawCount).perform (hstep.symm.trans h)

/-! ### The fault report (R185) -/

namespace State.FaultReported

/-- A fault that an instruction raises names the word it was fetched from. -/
theorem exec {s t : State} (hrun : s.mode = .run) (hpc : s.pc.toNat ≤ 0x0FFE)
    (h : exec (decodeWord (fetchWord s.mem s.pc)) s = .next t) : t.FaultReported := by
  obtain ⟨hword, -⟩ := isWordOf_decodeWord (fetchWord s.mem s.pc)
  obtain ⟨nnn, hi, hfull, rfl⟩ | ⟨hi, hempty, rfl⟩ | ⟨-, hmode | ⟨x, -, rfl⟩⟩ := exec_raises_or_keeps h
  · have hop : encode (.call nnn) = fetchWord s.mem s.pc := by rw [← hi, hword]
    exact ⟨fun _ => ⟨rfl, .inr (.inl ⟨rfl, rfl, hpc, hfull, hop, nnn, (congrArg decodeWord hop).trans hi⟩)⟩⟩
  · have hop : encode .ret = fetchWord s.mem s.pc := by rw [← hi, hword]
    exact ⟨fun _ => ⟨rfl, .inr (.inr ⟨rfl, rfl, hpc, hempty, hop, (congrArg decodeWord hop).trans hi⟩)⟩⟩
  · exact .of_live (by simp [hmode, hrun])
  · exact .of_live nofun

theorem cycle {s t : State} (hs : s.FaultReported) (h : cycle s = .next t) : t.FaultReported := by
  by_cases hrun : s.mode = .run
  · obtain hpc | hpc : s.pc.toNat ≤ 0x0FFE ∨ 0x0FFE < s.pc.toNat := by omega
    · exact exec hrun hpc ((cycle_of_fetchable s hrun hpc).symm.trans h)
    · cases (cycle_of_not_fetchable s hrun hpc).symm.trans h
      exact ⟨fun _ => ⟨rfl, .inl ⟨rfl, rfl, hpc⟩⟩⟩
  · cases (cycle_of_not_run s hrun).symm.trans h
    exact hs

theorem tick {s : State} (hs : s.FaultReported) : (tick s).FaultReported := by
  rw [tick_frame s]
  exact ⟨hs.report⟩

/-- In HALT a SetKey does nothing, and it never enters HALT. -/
theorem setKey {s : State} (hs : s.FaultReported) (k : Key) (p : Bool) : (setKey k p s).FaultReported := by
  obtain h | h | h := setKey_cases k p s
  · rwa [h]
  · rw [h]; exact ⟨hs.report⟩
  · rw [h]; exact .of_live nofun

theorem perform {e : Event} {s t : State} (hs : s.FaultReported) (h : perform e s = .next t) : t.FaultReported := by
  cases e with
  | cycle => exact hs.cycle h
  | tick => cases h; exact hs.tick
  | setKey k p => cases h; exact hs.setKey k p
  | reset rom => exact (invariantsHoldAfterReset.2 rom s t h).2

end State.FaultReported

/-- Settles O60: taking an event off the schedule and performing it (`State.FaultReported.perform`) both keep the
report. -/
theorem faultReportStaysTrueToTheState : Obligations.FaultReportStaysTrueToTheState := by
  intro s t _ hs h
  obtain ⟨e, rest, hstep⟩ := step_eq_perform s
  exact (hs.withInputs rest s.draws s.drawCount).perform (hstep.symm.trans h)

end Sys2Proof.Machine
end

section
/-! Flow of control (R100 to R104, R185) and the skips on registers and keys (R117, R118, R161, R162). -/

namespace Sys2Proof.Machine

open Sys2Proof.Statements

/-! ### Jumps -/

theorem exec_jpV0 (nnn : BitVec 12) (s : State) :
    exec (.jpV0 nnn) s = .next (s.jump (zext16 nnn + zextByte (s.getV 0))) := rfl

/-- Settles O11: `JP V0` is one jump, whose sum does not wrap. -/
theorem indexedJumpAddsV0Unmasked : Obligations.IndexedJumpAddsV0Unmasked :=
  ⟨encodes_jpV0, fun nnn s => ⟨_, exec_jpV0 nnn s, zext16_add_zextByte_toNat nnn _, changesOnlyPc_jump s _⟩⟩

/-! ### The call stack -/

theorem exec_call_of_lt (nnn : BitVec 12) (s : State) (h : s.sp.val < 16) :
    exec (.call nnn) s = .next { s with
      stack := s.stack.set s.sp.val (s.pc + 2) h
      sp := ⟨s.sp.val + 1, by omega⟩
      pc := zext16 nnn } :=
  execCall_of_lt nnn s h

theorem exec_ret_of_pos (s : State) (h : 0 < s.sp.val) :
    exec .ret s = .next { s with sp := ⟨s.sp.val - 1, by omega⟩, pc := s.stack[s.sp.val - 1] } :=
  execRet_of_pos s h

theorem exec_ret_of_empty (s : State) (h : s.sp.val = 0) :
    exec .ret s = .next (s.raiseFault .stackUnderflow (some 0x00EE)) :=
  execRet_of_empty s h

/-- A push leaves every slot but the newest. -/
theorem getElem_push_of_ne (stack : Vector Word 16) {sp : Nat} (hsp : sp < 16) (ra : Word) {k : Fin 16}
    (hk : k.val ≠ sp) : (stack.set sp ra hsp)[k] = stack[k] :=
  Vector.getElem_set_ne hsp k.isLt hk.symm

/-- Settles O12: the push of PC + 2 and the jump, below the depth limit. -/
theorem callPushesTheReturnAddress : Obligations.CallPushesTheReturnAddress :=
  ⟨encodes_call, fun nnn s h => ⟨_, exec_call_of_lt nnn s h, Vector.getElem_set_self h, rfl, zext16_toNat nnn,
    fun _ hk => getElem_push_of_ne s.stack h _ hk, rfl, fun _ => rfl⟩⟩

/-- Settles O14: the pop into PC above an empty stack, and the fault on an empty one. -/
theorem returnPopsTheNewestEntry : Obligations.ReturnPopsTheNewestEntry :=
  ⟨rfl, fun s h => ⟨_, exec_ret_of_pos s h, rfl, rfl, rfl, fun _ => rfl⟩,
    fun s h => ⟨_, exec_ret_of_empty s h, rfl, rfl, rfl⟩⟩

/-- Settles O15: the entry that `CALL` pushed is the newest when `RETURN` pops, since the stack is as the call left it. -/
theorem returnResumesPastItsCall : Obligations.ReturnResumesPastItsCall := by
  intro nnn s t u hlt hcall hstack hsp
  cases (exec_call_of_lt nnn s hlt).symm.trans hcall
  have hdepth : u.sp.val = s.sp.val + 1 := congrArg Fin.val hsp
  have hslots : u.stack = s.stack.set s.sp.val (s.pc + 2) hlt := hstack
  refine ⟨_, exec_ret_of_pos u (by omega), ?_, Fin.ext ?_, fun k hk => ?_⟩
  · simp [hslots, hdepth]
  · simp [hdepth]
  · rw [hslots]
    exact getElem_push_of_ne s.stack hlt _ (by omega)

/-! ### Fault entry -/

theorem encode_call_eq_ofNat (nnn : BitVec 12) : encode (.call nnn) = BitVec.ofNat 16 (0x2000 + nnn.toNat) := by
  apply BitVec.eq_of_toNat_eq
  have hword : (encode (.call nnn)).toNat = (0x2 : BitVec 4).toNat * 4096 + nnn.toNat := formatA_toNat _ _
  rw [hword, BitVec.toNat_ofNat, Nat.mod_eq_of_lt (by omega)]
  rfl

/-- Settles O16: all three are `State.raiseFault`, with the word of the instruction or none. -/
theorem faultEntryRecordsAndHalts : Obligations.FaultEntryRecordsAndHalts := by
  refine ⟨fun nnn s hfull => ?_, exec_ret_of_empty, fun s hrun hpc => cycle_of_not_fetchable s hrun (by omega),
    rfl, rfl, rfl⟩
  rw [exec_call_of_full nnn s hfull, encode_call_eq_ofNat]
  rfl

/-! ### Skips -/

theorem exec_seReg (x y : Reg) (s : State) : exec (.seReg x y) s = .next (s.skipIf (s.getV x == s.getV y)) := rfl

theorem exec_sneReg (x y : Reg) (s : State) : exec (.sneReg x y) s = .next (s.skipIf (s.getV x != s.getV y)) := rfl

theorem exec_skp (x : Reg) (s : State) : exec (.skp x) s = .next (s.skipIf s.key[lowNibble (s.getV x)]) := rfl

theorem exec_sknp (x : Reg) (s : State) : exec (.sknp x) s = .next (s.skipIf (!s.key[lowNibble (s.getV x)])) := rfl

/-- Settles O18: both are one skip, on the test `VX == VY` and on its negation. -/
theorem skipsOnRegistersFollowTheirCondition : Obligations.SkipsOnRegistersFollowTheirCondition :=
  ⟨encodes_seReg, encodes_sneReg, fun x y s =>
    ⟨completes_of_exec_eq_skipIf (exec_seReg x y s) beq_iff_eq.mpr beq_eq_false_iff_ne.mpr,
      completes_of_exec_eq_skipIf (exec_sneReg x y s) bne_iff_ne.mpr bne_eq_false_iff_eq.mpr⟩⟩

/-- Settles O19: both are one skip, on the key of VX's low nibble and on its negation. -/
theorem skipsOnKeysFollowTheKey : Obligations.SkipsOnKeysFollowTheKey := by
  refine ⟨encodes_skp, encodes_sknp, fun x k s hk => ?_⟩
  obtain rfl : k = lowNibble (s.getV x) := Fin.ext hk
  exact ⟨completes_of_exec_eq_skipIf (exec_skp x s) id id,
    completes_of_exec_eq_skipIf (exec_sknp x s) (fun h => by rw [h]; rfl) (fun h => by rw [h]; rfl)⟩

end Sys2Proof.Machine
end

section
/-! Arithmetic with a flag (R126 to R130), the random byte (R138) and the index register (R141, R142). -/

namespace Sys2Proof.Machine

open Sys2Proof.Statements

/-! ### Results and flags as numbers (R119) -/

theorem add8_toNat (a b : Byte) : (add8 a b).toNat = (a.toNat + b.toNat) % 256 := BitVec.toNat_add a b

theorem shiftRight1_toNat (a : Byte) : (shiftRight1 a).toNat = a.toNat / 2 := by
  rw [shiftRight1, BitVec.toNat_ushiftRight, Nat.shiftRight_eq_div_pow, Nat.pow_one]

theorem shiftLeft1_toNat (a : Byte) : (shiftLeft1 a).toNat = 2 * a.toNat % 256 := by
  rw [shiftLeft1, BitVec.toNat_shiftLeft, Nat.shiftLeft_eq, Nat.pow_one, Nat.mul_comm]

/-- An instruction that writes a result and then a flag, both computed from the old values, completes with these two
registers alone changed; with X = 0xF the flag is what stays (R33). -/
theorem completes_of_exec_eq_setVThenFlag {i : Instr} {s : State} {x : Reg} {a f : Byte} {result flag : Nat}
    (hexec : exec i s = .next (s.setVThenFlag x a f).advance) (ha : a.toNat = result) (hf : f = BitVec.ofNat 8 flag) :
    Completes i s (fun t => SetsWithFlag s t x result flag ∧ t.pc = s.pc + 2 ∧ ChangesOnlyVAndPc s t) := by
  refine ⟨_, hexec, ⟨(getV_setVThenFlag_vf s x a f).trans hf, fun hx => ?_,
    fun r hr hvf => getV_setVThenFlag_of_ne s a f hr hvf⟩, rfl, rfl, fun _ => rfl⟩
  rw [State.getV_advance, State.getV_setVThenFlag, if_neg hx, if_pos rfl, ha]

/-! ### The five meanings -/

theorem exec_addReg (x y : Reg) (s : State) : exec (.addReg x y) s =
    .next (s.setVThenFlag x (add8 (s.getV x) (s.getV y)) (carryFlag (s.getV x) (s.getV y))).advance := rfl

theorem exec_subReg (x y : Reg) (s : State) : exec (.subReg x y) s =
    .next (s.setVThenFlag x (sub8 (s.getV x) (s.getV y)) (notBorrowFlag (s.getV x) (s.getV y))).advance := rfl

theorem exec_subnReg (x y : Reg) (s : State) : exec (.subnReg x y) s =
    .next (s.setVThenFlag x (sub8 (s.getV y) (s.getV x)) (notBorrowFlag (s.getV y) (s.getV x))).advance := rfl

theorem exec_shr (x y : Reg) (s : State) : exec (.shr x y) s =
    .next (s.setVThenFlag x (shiftRight1 (s.getV x)) (lowBitFlag (s.getV x))).advance := rfl

theorem exec_shl (x y : Reg) (s : State) : exec (.shl x y) s =
    .next (s.setVThenFlag x (shiftLeft1 (s.getV x)) (highBitFlag (s.getV x))).advance := rfl

/-- Settles O21: result and flag of each as numbers (`add8_toNat`, `sub8_toNat`; carry and not-borrow are comparisons). -/
theorem additionsAndSubtractionsSetTheirFlag : Obligations.AdditionsAndSubtractionsSetTheirFlag :=
  ⟨encodes_addReg, encodes_subReg, encodes_subnReg, fun x y s =>
    ⟨completes_of_exec_eq_setVThenFlag (exec_addReg x y s) (add8_toNat _ _) (flagByte_decide _),
      completes_of_exec_eq_setVThenFlag (exec_subReg x y s) (sub8_toNat _ _) (flagByte_not_decide _),
      completes_of_exec_eq_setVThenFlag (exec_subnReg x y s) (sub8_toNat _ _) (flagByte_not_decide _)⟩⟩

/-- Settles O22: result and flag of each as quotients and remainders of VX. -/
theorem shiftsSetTheBitShiftedOut : Obligations.ShiftsSetTheBitShiftedOut :=
  ⟨encodes_shr, encodes_shl, fun x y s =>
    ⟨completes_of_exec_eq_setVThenFlag (exec_shr x y s) (shiftRight1_toNat _) (lowBitFlag_eq _),
      completes_of_exec_eq_setVThenFlag (exec_shl x y s) (shiftLeft1_toNat _) (highBitFlag_eq _)⟩⟩

/-! ### The random byte -/

theorem exec_rnd (x : Reg) (nn : Byte) (s : State) :
    exec (.rnd x nn) s = .next (s.takeDraw.setV x (s.nextDraw &&& nn)).advance := rfl

theorem nextDraw_of_head? {s : State} {d : Byte} (h : s.draws.head? = some d) : s.nextDraw = d := by
  obtain ⟨rest, hdraws⟩ := List.head?_eq_some_iff.mp h
  simp only [State.nextDraw, hdraws]

theorem and_toNat_le_right (a b : Byte) : (a &&& b).toNat ≤ b.toNat := by
  rw [BitVec.toNat_and]
  exact Nat.and_le_right

/-- Settles O23: the byte is `State.nextDraw`, supplied or free, of which nothing more is used. -/
theorem randomIsADrawUnderTheMask : Obligations.RandomIsADrawUnderTheMask := by
  refine ⟨encodes_rnd, fun x nn s => ⟨s.nextDraw, fun _ => nextDraw_of_head?, _, exec_rnd x nn s,
    setsOnly_setV_advance s.takeDraw x _, ?_, rfl, rfl, rfl, rfl, fun _ => rfl⟩⟩
  rw [State.getV_advance, State.getV_setV_self]
  exact and_toNat_le_right _ _

/-! ### The index register -/

theorem exec_addIVx (x : Reg) (s : State) : exec (.addIVx x) s =
    .next ({ s with i := s.i + zextByte (s.getV x) }.setV vf (indexOverflowFlag s.i (s.getV x))).advance := rfl

theorem add_zextByte_toNat (i : Word) (b : Byte) : (i + zextByte b).toNat = (i.toNat + b.toNat) % 65536 := by
  have hb : (zextByte b).toNat = b.toNat := BitVec.toNat_setWidth_of_le (by decide)
  rw [BitVec.toNat_add, hb]

theorem indexOverflowFlag_eq (i : Word) (b : Byte) :
    indexOverflowFlag i b = if i.toNat + b.toNat > 0x0FFF then 1 else 0 := by
  simp only [indexOverflowFlag, flagByte, decide_eq_true_eq]

/-- Settles O25: the sum in 16 bits, and the flag written with the old VX. -/
theorem addToIndexSetsTheOverflowFlag : Obligations.AddToIndexSetsTheOverflowFlag := by
  refine ⟨encodes_addIVx, fun x s => ⟨_, exec_addIVx x s, add_zextByte_toNat _ _, ?_, rfl, rfl, fun _ => rfl⟩⟩
  rw [← indexOverflowFlag_eq]
  exact setsOnly_setV_advance { s with i := s.i + zextByte (s.getV x) } vf _

theorem exec_ldFVx (x : Reg) (s : State) :
    exec (.ldFVx x) s = .next { s with i := fontAddress (lowNibble (s.getV x)) }.advance := rfl

/-- Settles O26: `LD F` is one write of I, to the glyph of VX's low nibble. -/
theorem fontAddressOfADigit : Obligations.FontAddressOfADigit :=
  ⟨encodes_ldFVx, fun x s => completes_of_exec_eq_index_advance (exec_ldFVx x s) (fontAddress_toNat _)⟩

end Sys2Proof.Machine
end

section
/-! Blocks of memory at I (R143 to R145): what the two stores leave at their own bytes and everywhere else, the load, and
the fetch of what was stored; and that the canonical form of memory is canonical. -/

namespace Sys2Proof.Machine

open Sys2Proof.Statements

/-! ### A block stored from I on -/

theorem Memory.read_storeFrom_zero {bs : List Byte} (m : Memory) (i : Word) {j : Nat} (hlen : bs.length ≤ 4096)
    (hj : j < bs.length) : (m.storeFrom i 0 bs).read (ea i j) = bs[j] := by
  have h := Memory.read_storeFrom bs m i 0 j hj (by omega)
  rwa [Nat.zero_add] at h

theorem Memory.read_storeFrom_zero_of_ne {bs : List Byte} (m : Memory) (i : Word) {a : Nat}
    (h : ∀ j, j < bs.length → a ≠ ea i j) : (m.storeFrom i 0 bs).read a = m.read a :=
  Memory.read_storeFrom_of_ne bs m i 0 a fun j hj => by rw [Nat.zero_add]; exact h j hj

/-! ### The decimal digits (R143) -/

theorem decimalDigits_toNat (b : Byte) :
    (decimalDigits b).map BitVec.toNat = [b.toNat / 100, b.toNat / 10 % 10, b.toNat % 10] := by
  have := b.isLt
  simp only [decimalDigits, List.map_cons, List.map_nil, BitVec.toNat_ofNat, List.cons.injEq, and_true]
  omega

theorem exec_ldBVx (x : Reg) (s : State) : exec (.ldBVx x) s =
    .next { s with mem := s.mem.storeFrom s.i 0 (decimalDigits (s.getV x)) }.advance := rfl

/-- What `FX33` leaves at the byte of each digit. -/
theorem read_storeFrom_decimalDigits (m : Memory) (i : Word) (b : Byte) {j : Nat} (hj : j < 3) :
    ((m.storeFrom i 0 (decimalDigits b)).read (ea i j)).toNat =
      [b.toNat / 100, b.toNat / 10 % 10, b.toNat % 10][j] := by
  have hlen : (decimalDigits b).length = 3 := rfl
  rw [Memory.read_storeFrom_zero m i (by omega) (by omega : j < (decimalDigits b).length)]
  simp only [← decimalDigits_toNat, List.getElem_map]

/-- Settles O27: the three digits are one block stored from I on. -/
theorem decimalDigitsAreStored : Obligations.DecimalDigitsAreStored := by
  refine ⟨encodes_ldBVx, fun x s => ⟨_, exec_ldBVx x s, read_storeFrom_decimalDigits s.mem s.i (s.getV x) (by decide),
    read_storeFrom_decimalDigits s.mem s.i (s.getV x) (by decide),
    read_storeFrom_decimalDigits s.mem s.i (s.getV x) (by decide),
    fun a h0 h1 h2 => Memory.read_storeFrom_zero_of_ne s.mem s.i fun j hj => ?_, rfl, rfl⟩⟩
  have hj : j < 3 := hj
  interval_cases j
  · exact h0
  · exact h1
  · exact h2

/-! ### The registers stored (R144) and loaded (R145) -/

theorem regsUpTo_getElem (s : State) {x r : Reg} (hr : r.val < (s.regsUpTo x).length) :
    (s.regsUpTo x)[r.val] = s.getV r := by
  simp [State.regsUpTo, State.getV]

theorem exec_storeRegs (x : Reg) (s : State) : exec (.storeRegs x) s =
    .next { s with mem := s.mem.storeFrom s.i 0 (s.regsUpTo x) }.advance := rfl

theorem read_storeFrom_regsUpTo (s : State) {x r : Reg} (hr : r ≤ x) :
    (s.mem.storeFrom s.i 0 (s.regsUpTo x)).read (ea s.i r.val) = s.getV r := by
  have hlen := regsUpTo_length s x
  have hr : r.val ≤ x.val := hr
  rw [Memory.read_storeFrom_zero s.mem s.i (by omega) (by omega : r.val < (s.regsUpTo x).length), regsUpTo_getElem]

theorem read_storeFrom_regsUpTo_of_ne (s : State) {x : Reg} {a : Nat} (h : ∀ r : Reg, r ≤ x → a ≠ ea s.i r.val) :
    (s.mem.storeFrom s.i 0 (s.regsUpTo x)).read a = s.mem.read a :=
  Memory.read_storeFrom_zero_of_ne s.mem s.i fun j hj => by
    rw [regsUpTo_length] at hj
    exact h ⟨j, by omega⟩ (Nat.le_of_lt_succ hj)

/-- Settles O28: the registers up to VX are one block stored from I on. -/
theorem registersAreStoredFromV0ToVx : Obligations.RegistersAreStoredFromV0ToVx :=
  ⟨encodes_storeRegs, fun x s => ⟨_, exec_storeRegs x s, fun _ => read_storeFrom_regsUpTo s,
    fun _ => read_storeFrom_regsUpTo_of_ne s, rfl, rfl⟩⟩

theorem changesOnlyVAndPc_loadRegs {x : Reg} {s t : State} (h : exec (.loadRegs x) s = .next t) :
    t.pc = s.pc + 2 ∧ ChangesOnlyVAndPc s t := by
  obtain ⟨v, rfl⟩ := exec_loadRegs_cases h
  exact ⟨rfl, rfl, fun _ => rfl⟩

/-- Settles O29: the value of each register after the load is `exec_loadRegs_getV`. -/
theorem registersAreLoadedFromV0ToVx : Obligations.RegistersAreLoadedFromV0ToVx := by
  refine ⟨encodes_loadRegs, fun x s => ?_⟩
  obtain ⟨t, ht⟩ := exec_completes (.loadRegs x) s
  refine ⟨t, ht, fun r hr => ?_, fun r hr => ?_, changesOnlyVAndPc_loadRegs ht⟩
  · rw [exec_loadRegs_getV ht, if_pos hr]
    rfl
  · rw [exec_loadRegs_getV ht, if_neg (not_le.mpr hr)]

/-! ### A stored word fetched (R72) -/

/-- The byte after one that is not the last of memory is at the next offset. -/
theorem ea_succ {i : Word} {k : Nat} (h : ea i k ≤ 0x0FFE) : ea i (k + 1) = ea i k + 1 := by
  simp only [ea, Config.memSize] at *
  omega

/-- Settles O30: the two bytes of the fetch are two neighbouring bytes of the block that `FX55` stored. -/
theorem storedWordIsFetchedNext : Obligations.StoredWordIsFetchedNext := by
  intro x q r s t a hexec hq hqx ha hfits
  cases (exec_storeRegs x s).symm.trans hexec
  have hqx' : q.val ≤ x.val := hqx
  have hr : r ≤ x := Fin.le_def.mpr (by omega)
  have hnext : a.toNat + 1 = ea s.i q.val := by rw [hq, ea_succ (ha ▸ hfits), ha]
  rw [fetchWord, hnext, ha]
  exact congrArg₂ wordOfBytes (read_storeFrom_regsUpTo s hr) (read_storeFrom_regsUpTo s hqx)

/-! ### The canonical form (log 22) -/

theorem Memory.wfFrom_cons_iff (lo a : Nat) (v : Byte) (rest : Memory) :
    Memory.wfFrom lo ((a, v) :: rest) = true ↔
      lo ≤ a ∧ a < 4096 ∧ v ≠ Memory.background a ∧ Memory.wfFrom (a + 1) rest = true := by
  simp [Memory.wfFrom, and_assoc]

/-- Below its first entry a canonical memory holds the reset contents. -/
theorem Memory.read_of_lt_of_wfFrom {m : Memory} {lo a : Nat} (hm : Memory.wfFrom lo m = true) (ha : a < lo) :
    m.read a = Memory.background a := by
  induction m generalizing lo with
  | nil => rfl
  | cons c rest ih =>
    obtain ⟨hlo, -, -, hrest⟩ := (Memory.wfFrom_cons_iff lo c.1 c.2 rest).mp hm
    rw [Memory.read, if_neg (by omega)]
    exact ih hrest (by omega)

theorem Memory.read_head (a : Nat) (v : Byte) (rest : Memory) : Memory.read ((a, v) :: rest) a = v := if_pos rfl

theorem Memory.read_cons_of_ne {a b : Nat} (v : Byte) (rest : Memory) (h : b ≠ a) :
    Memory.read ((a, v) :: rest) b = Memory.read rest b := if_neg h

/-- An entry differs from the reset contents, so it shows in no canonical memory whose entries come later. -/
theorem Memory.read_head_ne {n rest : Memory} {lo a : Nat} {v : Byte}
    (hm : Memory.wfFrom lo ((a, v) :: rest) = true) (hn : Memory.wfFrom (a + 1) n = true) :
    Memory.read ((a, v) :: rest) a ≠ n.read a := by
  obtain ⟨-, -, hv, -⟩ := (Memory.wfFrom_cons_iff lo a v rest).mp hm
  rwa [Memory.read_head, Memory.read_of_lt_of_wfFrom hn (Nat.lt_succ_self a)]

/-- Two entries at one address that read the same leave rests that read the same: the rests begin after it. -/
theorem Memory.rest_reads_eq {a : Nat} {v u : Byte} {rest rest' : Memory} (hm : Memory.wfFrom (a + 1) rest = true)
    (hn : Memory.wfFrom (a + 1) rest' = true)
    (h : ∀ x, Memory.read ((a, v) :: rest) x = Memory.read ((a, u) :: rest') x) (x : Nat) :
    Memory.read rest x = Memory.read rest' x := by
  by_cases hx : x = a
  · rw [hx, Memory.read_of_lt_of_wfFrom hm (Nat.lt_succ_self a), Memory.read_of_lt_of_wfFrom hn (Nat.lt_succ_self a)]
  · rw [← Memory.read_cons_of_ne v rest hx, h x, Memory.read_cons_of_ne u rest' hx]

theorem Memory.eq_of_reads_eq {m n : Memory} {lo : Nat} (hm : Memory.wfFrom lo m = true)
    (hn : Memory.wfFrom lo n = true) (h : ∀ a, m.read a = n.read a) : m = n := by
  induction m generalizing lo n with
  | nil =>
    cases n with
    | nil => rfl
    | cons d rest' => exact absurd (h d.1).symm (Memory.read_head_ne hn rfl)
  | cons c rest ih =>
    obtain ⟨a, v⟩ := c
    obtain ⟨hlo, halt, hv, hrest⟩ := (Memory.wfFrom_cons_iff lo a v rest).mp hm
    cases n with
    | nil => exact absurd (h a) (Memory.read_head_ne hm rfl)
    | cons d rest' =>
      obtain ⟨b, u⟩ := d
      obtain ⟨hlo', hblt, hu, hrest'⟩ := (Memory.wfFrom_cons_iff lo b u rest').mp hn
      obtain hab | rfl | hab := Nat.lt_trichotomy a b
      · have hlater := (Memory.wfFrom_cons_iff (a + 1) b u rest').mpr ⟨hab, hblt, hu, hrest'⟩
        exact absurd (h a) (Memory.read_head_ne hm hlater)
      · have hvu : v = u := by simpa only [Memory.read_head] using h a
        rw [hvu, ih hrest hrest' (Memory.rest_reads_eq hrest hrest' h)]
      · have hlater := (Memory.wfFrom_cons_iff (b + 1) a v rest).mpr ⟨hab, halt, hv, hrest⟩
        exact absurd (h b).symm (Memory.read_head_ne hn hlater)

/-- Settles O31: entry by entry from the lowest address on (`Memory.eq_of_reads_eq`). -/
theorem canonicalMemoriesWithEqualReadsAreEqual : Obligations.CanonicalMemoriesWithEqualReadsAreEqual :=
  fun _ _ hm hn h => Memory.eq_of_reads_eq hm hn h

end Sys2Proof.Machine
end

section
/-! DXYN (R151, R152): the loops of the meaning flip exactly the pixels of the sprite (`drawSprite_flips`), so what a
drawing leaves is said pixel by pixel, and two drawings of one sprite cancel. -/

namespace Sys2Proof.Machine

open Sys2Proof.Statements

/-! ### One drawing -/

/-- The framebuffer and the collision that the sprite of `DXYN` leaves in the state `s`. -/
def State.drawn (s : State) (x y : Reg) (n : BitVec 4) : Framebuffer × Bool :=
  drawSprite s.mem s.i ((s.getV y).toNat % 32) ((s.getV x).toNat % 64) n.toNat (s.fb, false)

theorem exec_drw (x y : Reg) (n : BitVec 4) (s : State) : exec (.drw x y n) s =
    .next ({ s with fb := (s.drawn x y n).1 }.setV vf (flagByte (s.drawn x y n).2)).advance := rfl

theorem drawn_pixel (s : State) (x y : Reg) (n : BitVec 4) (row : Fin 32) (col : Fin 64) :
    (s.drawn x y n).1[row][col] = (s.fb[row][col] ^^ spriteBit s x y n row col) := by
  rw [← Framebuffer.pixel_fin, ← Framebuffer.pixel_fin]
  exact (drawSprite_flips _ _ _ _ _ _).pixels row.val col.val row.isLt col.isLt

/-- The pixels that a sprite finds at 1. -/
abbrev Collides (s : State) (x y : Reg) (n : BitVec 4) : Prop :=
  ∃ (row : Fin 32) (col : Fin 64), s.fb[row][col] = true ∧ spriteBit s x y n row col = true

theorem drawn_collision_iff (s : State) (x y : Reg) (n : BitVec 4) : (s.drawn x y n).2 = true ↔ Collides s x y n := by
  refine (drawSprite_flips _ _ _ _ _ _).collision.trans ⟨?_, ?_⟩
  · rintro (h | ⟨r, c, hr, hc, hbit, hpixel⟩)
    · exact absurd h Bool.false_ne_true
    · exact ⟨⟨r, hr⟩, ⟨c, hc⟩, (Framebuffer.pixel_fin s.fb ⟨r, hr⟩ ⟨c, hc⟩).symm.trans hpixel, hbit⟩
  · rintro ⟨row, col, hpixel, hbit⟩
    exact .inr ⟨row.val, col.val, row.isLt, col.isLt, hbit, (Framebuffer.pixel_fin s.fb row col).trans hpixel⟩

theorem flagByte_eq_ite {b : Bool} {p : Prop} [Decidable p] (h : b = true ↔ p) : flagByte b = if p then 1 else 0 :=
  if_congr h rfl rfl

/-- Settles O33: pixels and collision of the drawing (`drawn_pixel`, `drawn_collision_iff`), and the frame of the
meaning. -/
theorem drawXorsTheSpriteAndReportsCollision : Obligations.DrawXorsTheSpriteAndReportsCollision := by
  refine ⟨encodes_drw, fun x y n s => ⟨_, exec_drw x y n s, drawn_pixel s x y n, ?_, rfl, rfl, fun _ => rfl⟩⟩
  rw [← flagByte_eq_ite (drawn_collision_iff s x y n)]
  exact setsOnly_setV_advance { s with fb := (s.drawn x y n).1 } vf _

/-! ### Two drawings of one sprite (R152) -/

section
variable {x y : Reg} {n : BitVec 4} {s t u : State}

theorem exec_drw_pixel (h : exec (.drw x y n) s = .next t) (row : Fin 32) (col : Fin 64) :
    t.fb[row][col] = (s.fb[row][col] ^^ spriteBit s x y n row col) := by
  rw [← drawn_pixel, ← Host.Outcome.next.inj ((exec_drw x y n s).symm.trans h), State.advance_fb, State.setV_fb]

theorem exec_drw_vf (h : exec (.drw x y n) s = .next t) : t.getV vf = flagByte (s.drawn x y n).2 := by
  rw [← Host.Outcome.next.inj ((exec_drw x y n s).symm.trans h), State.getV_advance, State.getV_setV_self]

theorem exec_drw_vf_of_collides (h : exec (.drw x y n) s = .next t) (hc : Collides s x y n) : t.getV vf = 1 := by
  rw [exec_drw_vf h, (drawn_collision_iff s x y n).mpr hc]
  rfl

/-- A sprite with no 1 bit on the screen meets no pixel. -/
theorem exec_drw_vf_of_blank (h : exec (.drw x y n) s = .next t)
    (hblank : ∀ row col, spriteBit s x y n row col = false) : t.getV vf = 0 := by
  have hno : ¬(s.drawn x y n).2 = true := fun hc => by
    obtain ⟨row, col, -, hbit⟩ := (drawn_collision_iff s x y n).mp hc
    exact absurd (hbit.symm.trans (hblank row col)) nofun
  rw [exec_drw_vf h, Bool.eq_false_iff.mpr hno]
  rfl

/-- Where the sprite's bits fall depends on the two coordinates, I and the bytes of memory alone. -/
theorem spriteBit_congr (hi : u.i = s.i) (hmem : ∀ a, u.mem.read a = s.mem.read a) (hx : u.getV x = s.getV x)
    (hy : u.getV y = s.getV y) (row : Fin 32) (col : Fin 64) :
    spriteBit u x y n row col = spriteBit s x y n row col := by
  simp only [spriteBit, hi, hmem, hx, hy]

end

/-- Settles O34: the second drawing flips the same pixels back (`spriteBit_congr`), and collides where the first left one
of them at 1. -/
theorem drawingTwiceRestoresTheScreen : Obligations.DrawingTwiceRestoresTheScreen := by
  intro x y n s t u r hfirst hfb hi hmem hx hy hsecond
  have hbit := spriteBit_congr (n := n) hi hmem hx hy
  refine ⟨Framebuffer.ext_pixels fun row col => ?_, fun ⟨row, col, hb, hone⟩ => ?_, fun hblank => ⟨?_, ?_⟩⟩
  · rw [exec_drw_pixel hsecond, hbit, hfb, exec_drw_pixel hfirst, Bool.xor_assoc, Bool.xor_self, Bool.xor_false]
  · exact exec_drw_vf_of_collides hsecond ⟨row, col, hfb ▸ hone, (hbit row col).trans hb⟩
  · exact exec_drw_vf_of_blank hfirst hblank
  · exact exec_drw_vf_of_blank hsecond fun row col => (hbit row col).trans (hblank row col)

end Sys2Proof.Machine
end

section
/-! Steps that change nothing, and the step itself (R21, R22, R187, R215). -/

namespace Sys2Proof.Machine

open Sys2Proof.Statements

/-! ### What a step performs (R21, R22) -/

theorem decodeWord_of_decodeBytes {hi lo : Byte} {tail : List Byte} {i : Instr}
    (h : decodeBytes (hi :: lo :: tail) = .ok (i, tail)) : decodeWord (wordOfBytes hi lo) = i :=
  congrArg Prod.fst (Except.ok.inj h)

/-- Settles O6: the schedule's head or a Cycle, and the fetched word is what its two bytes decode to. -/
theorem stepRunsTheDecodedInstruction : Obligations.StepRunsTheDecodedInstruction := by
  refine fun s rest => ⟨fun e => step_of_schedule_cons s e rest, step_of_schedule_nil s, cycle_of_not_run s,
    fun i tail hrun hpc hbytes => ?_⟩
  rw [← decodeWord_of_decodeBytes hbytes]
  exact cycle_of_fetchable s hrun hpc

/-! ### Fixed points of the step -/

theorem run_of_step_eq_self {s : State} (h : step s = .next s) (n : Nat) : Host.Core.run core n s = .next s := by
  induction n with
  | zero => rfl
  | succ n ih =>
    have hstep : core.step s = .next s := h
    simp only [Host.Core.run, hstep]
    exact ih

theorem safeFor_of_step_eq_self {s : State} (h : step s = .next s) (hlive : s.mode ≠ .halt) (n : Nat) :
    SafeFor n s := by
  induction n with
  | zero => exact hlive
  | succ n ih =>
    refine ⟨hlive, ?_⟩
    rw [h]
    exact ih

/-- With nothing scheduled a step outside RUN is a Cycle that does nothing. -/
theorem step_eq_self_of_not_run {s : State} (hnil : s.schedule = []) (hm : s.mode ≠ .run) : step s = .next s :=
  (step_of_schedule_nil s hnil).trans (cycle_of_not_run s hm)

/-- With nothing scheduled a step at a `JP` to its own address jumps to where PC is. -/
theorem step_eq_self_of_jump_to_self {s : State} {nnn : BitVec 12} (hnil : s.schedule = []) (hrun : s.mode = .run)
    (hpc : s.pc.toNat ≤ 0x0FFE) (hjp : decodeWord (fetchWord s.mem s.pc) = .jp nnn) (hself : nnn.toNat = s.pc.toNat) :
    step s = .next s := by
  have htarget : zext16 nnn = s.pc := BitVec.eq_of_toNat_eq ((zext16_toNat nnn).trans hself)
  rw [step_of_schedule_nil s hnil, cycle_of_fetchable s hrun hpc, hjp, exec_jp, htarget]
  rfl

/-- Settles O47: in HALT every event but Reset answers the state it found, so a step does too. -/
theorem haltAbsorbsEveryEventButReset : Obligations.HaltAbsorbsEveryEventButReset := by
  intro s hhalt
  have hm : s.mode ≠ .run := by simp [hhalt]
  exact ⟨cycle_of_not_run s hm, congrArg _ (tick_of_halt s hhalt), fun k p => congrArg _ (setKey_of_halt k p s hhalt),
    fun n hnil => run_of_step_eq_self (step_eq_self_of_not_run hnil hm) n⟩

/-- Settles O48: both states are fixed points of the step, outside HALT. -/
theorem endlessRunsAreNeitherFaultNorStuck : Obligations.EndlessRunsAreNeitherFaultNorStuck := by
  rintro s n hnil (hwait | ⟨hrun, hpc, nnn, hjp, hself⟩)
  · have hstep := step_eq_self_of_not_run hnil (by simp [hwait])
    exact ⟨run_of_step_eq_self hstep n, safeFor_of_step_eq_self hstep (by simp [hwait]) n⟩
  · have hstep := step_eq_self_of_jump_to_self hnil hrun hpc hjp hself
    exact ⟨run_of_step_eq_self hstep n, safeFor_of_step_eq_self hstep (by simp [hrun]) n⟩

end Sys2Proof.Machine
end

section
/-! WAITX outside WAIT (R39): no operation reads it, `FX0A` writes it, and nothing else enters WAIT. -/

namespace Sys2Proof.Machine

open Sys2Proof.Statements

/-- The state with another wait register. -/
def State.withWaitx (s : State) (x : Reg) : State := { s with waitx := x }

/-- Any instruction but `FX0A` carries the wait register through. -/
theorem exec_withWaitx {i : Instr} {s t : State} (h : exec i s = .next t) (hi : ∀ x, i ≠ .ldVxK x) (w : Reg) :
    exec i (s.withWaitx w) = .next (t.withWaitx w) := by
  cases i with
  | ldVxK x => exact absurd rfl (hi x)
  | call nnn =>
    obtain ⟨hlt, rfl⟩ | ⟨hfull, rfl⟩ := exec_call_cases h
    · exact exec_call_of_lt nnn (s.withWaitx w) hlt
    · exact exec_call_of_full nnn (s.withWaitx w) hfull
  | ret =>
    obtain ⟨hpos, rfl⟩ | ⟨hempty, rfl⟩ := exec_ret_cases h
    · exact exec_ret_of_pos (s.withWaitx w) hpos
    · exact exec_ret_of_empty (s.withWaitx w) hempty
  | loadRegs x =>
    rw [← Host.Outcome.next.inj h]
    exact exec_loadRegs x (s.withWaitx w)
  | _ => cases h; rfl

theorem exec_mode_ne_wait {i : Instr} {s t : State} (h : exec i s = .next t) (hi : ∀ x, i ≠ .ldVxK x)
    (hm : s.mode ≠ .wait) : t.mode ≠ .wait := by
  obtain ⟨nnn, -, -, rfl⟩ | ⟨-, -, rfl⟩ | ⟨-, hmode | ⟨x, hx, -⟩⟩ := exec_raises_or_keeps h
  · exact nofun
  · exact nofun
  · rwa [hmode]
  · exact absurd hx (hi x)

namespace State.SameButIdleWaitx

theorem refl (s : State) : s.SameButIdleWaitx s := ⟨rfl, fun _ => rfl⟩

theorem withWaitx {s : State} (hm : s.mode ≠ .wait) (w : Reg) : s.SameButIdleWaitx (s.withWaitx w) :=
  ⟨rfl, fun hwait => absurd hwait hm⟩

/-- Two such states are one, or differ in WAITX outside WAIT. -/
theorem eq_or_withWaitx {s t : State} (h : s.SameButIdleWaitx t) :
    t = s ∨ (s.mode ≠ .wait ∧ t = s.withWaitx t.waitx) := by
  by_cases hm : s.mode = .wait
  · exact .inl (h.rest.trans (by rw [h.waiting hm]))
  · exact .inr ⟨hm, h.rest⟩

theorem outcomesRelated_refl (o : Host.Outcome State Fault Refusal) : OutcomesRelated State.SameButIdleWaitx o o := by
  cases o with
  | next s => exact refl s
  | fault r => exact rfl
  | refused r => exact rfl

/-! ### The events, on a state outside WAIT and the same with another WAITX -/

section
variable {s : State} (hm : s.mode ≠ .wait) (w : Reg)
include hm

theorem exec_related (i : Instr) : OutcomesRelated State.SameButIdleWaitx (exec i s) (exec i (s.withWaitx w)) := by
  by_cases hi : ∀ x, i ≠ .ldVxK x
  · obtain ⟨t, ht⟩ := exec_completes i s
    rw [ht, exec_withWaitx ht hi w]
    exact withWaitx (exec_mode_ne_wait ht hi hm) w
  · obtain ⟨x, rfl⟩ : ∃ x, i = .ldVxK x := by simpa using hi
    exact refl (s.enterWait x)

theorem cycle_related : OutcomesRelated State.SameButIdleWaitx (cycle s) (cycle (s.withWaitx w)) := by
  by_cases hrun : s.mode = .run
  · obtain hpc | hpc : s.pc.toNat ≤ 0x0FFE ∨ 0x0FFE < s.pc.toNat := by omega
    · rw [cycle_of_fetchable s hrun hpc, cycle_of_fetchable (s.withWaitx w) hrun hpc]
      exact exec_related hm w _
    · rw [cycle_of_not_fetchable s hrun hpc, cycle_of_not_fetchable (s.withWaitx w) hrun hpc]
      exact withWaitx (s := s.raiseFault .fetchOob none) nofun w
  · rw [cycle_of_not_run s hrun, cycle_of_not_run (s.withWaitx w) hrun]
    exact withWaitx hm w

theorem tick_related : (tick s).SameButIdleWaitx (tick (s.withWaitx w)) := by
  by_cases hhalt : s.mode = .halt
  · rw [tick_of_halt s hhalt, tick_of_halt (s.withWaitx w) hhalt]
    exact withWaitx hm w
  · rw [tick_eq_withTimers s hhalt, tick_eq_withTimers (s.withWaitx w) hhalt]
    exact withWaitx (s := s.withTimers (countDown s.dt) (countDown s.st)) hm w

theorem setKey_related (k : Key) (p : Bool) : (setKey k p s).SameButIdleWaitx (setKey k p (s.withWaitx w)) := by
  cases hmode : s.mode with
  | wait => exact absurd hmode hm
  | halt =>
    rw [setKey_of_halt k p s hmode, setKey_of_halt k p (s.withWaitx w) hmode]
    exact withWaitx hm w
  | run =>
    rw [setKey_of_run k p s hmode, setKey_of_run k p (s.withWaitx w) hmode]
    exact withWaitx (s := s.writeKey k p) hm w

/-- Reset reads neither MODE nor WAITX. -/
theorem perform_related (e : Event) :
    OutcomesRelated State.SameButIdleWaitx (perform e s) (perform e (s.withWaitx w)) := by
  cases e with
  | cycle => exact cycle_related hm w
  | tick => exact tick_related hm w
  | setKey k p => exact setKey_related hm w k p
  | reset rom => exact outcomesRelated_refl (resetEvent rom s)

theorem step_related : OutcomesRelated State.SameButIdleWaitx (step s) (step (s.withWaitx w)) := by
  cases hs : s.schedule with
  | nil =>
    rw [step_of_schedule_nil s hs, step_of_schedule_nil (s.withWaitx w) hs]
    exact cycle_related hm w
  | cons e rest =>
    rw [step_of_schedule_cons s e rest hs, step_of_schedule_cons (s.withWaitx w) e rest hs]
    exact perform_related (s := { s with schedule := rest }) hm w e

end

end State.SameButIdleWaitx

/-- Settles O54: equal states step alike, and outside WAIT every event carries another WAITX through or, entering the
wait, overwrites it (`State.SameButIdleWaitx.step_related`). -/
theorem waitRegisterIsMeaninglessOutsideWait : Obligations.WaitRegisterIsMeaninglessOutsideWait := by
  intro s t h
  obtain heq | ⟨hm, heq⟩ := h.eq_or_withWaitx
  · rw [heq]
    exact ⟨rfl, State.SameButIdleWaitx.outcomesRelated_refl _⟩
  · rw [heq]
    exact ⟨rfl, State.SameButIdleWaitx.step_related hm _⟩

end Sys2Proof.Machine
end

section
/-! Reset(rom) (R44 to R47, R69, R200): the state it leaves is `State.resetWith rom`, whose memory is the loader's image
over the reset contents. -/

namespace Sys2Proof.Machine

/-! ### The loader's image -/

theorem Memory.read_ofRom_program (rom : List Byte) (j : Nat) (h : j < rom.length) :
    (Memory.ofRom rom).read (0x200 + j) = rom[j] := by
  have hin : 0x200 ≤ 0x200 + j ∧ 0x200 + j - 0x200 < rom.length := by omega
  rw [Memory.ofRom, Memory.read_image, dif_pos hin]
  simp only [Nat.add_sub_cancel_left]

theorem Memory.read_ofRom_of_not_program (rom : List Byte) {a : Nat} (h : a < 0x200 ∨ 0x200 + rom.length ≤ a) :
    (Memory.ofRom rom).read a = Memory.background a := by
  have hout : ¬(0x200 ≤ a ∧ a - 0x200 < rom.length) := by omega
  rw [Memory.ofRom, Memory.read_image, dif_neg hout]

theorem Memory.background_font (j : Nat) : Memory.background (0x050 + j) = fontData.getD j 0 := by
  have hle : fontBase ≤ 0x050 + j := Nat.le_add_right _ _
  rw [Memory.background, if_pos hle, fontBase, Nat.add_sub_cancel_left]

theorem Memory.read_ofRom_font (rom : List Byte) {j : Nat} (h : j < 80) :
    (Memory.ofRom rom).read (0x050 + j) = fontData.getD j 0 := by
  rw [Memory.read_ofRom_of_not_program rom (by omega), Memory.background_font]

/-! ### The event -/

theorem resetEvent_completes_iff (rom : List Byte) (s : State) :
    (∃ t : State, resetEvent rom s = .next t) ↔ rom.length ≤ 3584 :=
  ⟨fun ⟨_, h⟩ => (resetEvent_cases h).1, fun hfit => ⟨_, resetEvent_of_fits rom s hfit⟩⟩

/-- Settles O55: when Reset completes (`resetEvent_completes_iff`), and what the image reads as in program and font. -/
theorem resetLoadsTheRomAtProgBase : Obligations.ResetLoadsTheRomAtProgBase := by
  refine fun rom s => ⟨resetEvent_completes_iff rom s, fun t h => ?_⟩
  obtain ⟨-, rfl⟩ := resetEvent_cases h
  refine ⟨rfl, rfl, Memory.read_ofRom_program rom, 0x050, by decide, fun j hj => ?_⟩
  rw [← List.getD_eq_getElem fontData 0 hj]
  exact Memory.read_ofRom_font rom hj

/-- Settles O56: the fields of the reset state, and the image outside program and font. -/
theorem resetZeroesTheRest : Obligations.ResetZeroesTheRest := by
  intro rom s t h
  obtain ⟨hfit, rfl⟩ := resetEvent_cases h
  refine ⟨fun r => Vector.getElem_replicate r.isLt, rfl, rfl, rfl, fun k => Vector.getElem_replicate k.isLt,
    Framebuffer.getElem_blank, fun k => Vector.getElem_replicate k.isLt, rfl, rfl, rfl,
    fun j => Memory.read_ofRom_font rom, fun a ha => ?_, Memory.wf_ofRom rom hfit⟩
  exact (Memory.read_ofRom_of_not_program rom (by omega)).trans (Memory.background_eq_zero (by omega))

/-- In HALT every event but Reset answers the state it found (R187). -/
theorem perform_of_halt {e : Event} {s : State} (hhalt : s.mode = .halt) (he : ∀ rom, e ≠ .reset rom) :
    perform e s = .next s := by
  obtain ⟨hcycle, htick, hsetKey, -⟩ := haltAbsorbsEveryEventButReset s hhalt
  cases e with
  | cycle => exact hcycle
  | tick => exact htick
  | setKey k p => exact hsetKey k p
  | reset rom => exact absurd rfl (he rom)

/-- Settles O57: of the state before, the state after holds the inputs to come alone (`resetEvent_cases`); and what leaves
HALT is no other event (`perform_of_halt`). -/
theorem resetForgetsTheStateBefore : Obligations.ResetForgetsTheStateBefore := by
  refine ⟨fun rom s u t hfit h => ?_, fun e s t hhalt h hleft => ?_⟩
  · obtain ⟨-, rfl⟩ := resetEvent_cases h
    exact resetEvent_of_fits rom u hfit
  · by_contra hno
    cases (perform_of_halt hhalt fun rom he => hno ⟨rom, he⟩).symm.trans h
    exact hleft hhalt

end Sys2Proof.Machine
end
